-- ==== Sys2Proof/Word.lean ====
section
/-! DEFINITION. The plain values of the block: bytes, 5-bit codes, event words, and the closed sets
of names that its registers hold (spec/10_state.md, R20). -/

namespace Sys2Proof

/-- A received byte, a buffer cell or the payload of an event word (R16, R44, R78). -/
abbrev Byte := BitVec 8

/-- A 5-bit line code; bit 0 is data slot 1 (R15, R68). -/
abbrev Code := BitVec 5

/-- The 10-bit event word on port `ev` (R34, R78). -/
abbrev EventWord := BitVec 10

/-- The two shift states (R20, R22). -/
inductive Shift where
  | letters
  | figures
deriving DecidableEq, Repr

/-- The two modes of the Mode Demultiplexer (R20, R23). -/
inductive Mode where
  | data
  | command
deriving DecidableEq, Repr

/-- The two levels of the output line: SPACE is the start level, MARK the idle and stop level
(R20, R30). -/
inductive Level where
  | space
  | mark
deriving DecidableEq, Repr

/-- The tick period select (R20, R31). -/
inductive Period where
  | std
  | long
deriving DecidableEq, Repr

/-- The Pending Code (R28). Kind `11`, and NoData with a code other than 0, "never occur": they are
no values of this type. -/
inductive Pending where
  | noData
  | data (c : Code)
  | shift (c : Code)
deriving DecidableEq, Repr

/-- The Bit Slot Counter counts 0 to 6; 7 is not a state (R29, R36, decision D21). -/
abbrev Slot := Fin 7

end Sys2Proof
end

