-- ==== Sys2Proof/Config.lean ====
section
/-! DEFINITION. The implementation parameters of spec/00_scope.md (R6 to R14), "as a configuration
record". No step writes them (R21). The default values and the check of the constraints are in
Machine/Parameters.lean. -/

namespace Sys2Proof

/-- One mapped character of the Code Table: (character, 5-bit code, required shift state) (R11). -/
structure TableEntry where
  char : Byte
  code : Code
  shift : Shift
deriving DecidableEq, Repr

/-- The open choice of the figures-case national positions (R11, R76). -/
inductive FigsVariant where
  | ita2Intl
  | usTty
deriving DecidableEq, Repr

/-- The configuration record. `codeTable` lists the mapped characters; a character it does not list
is NoCode (R11, R77). -/
structure Config where
  /-- Capacity of the Text Ring Buffer (R6). -/
  C1 : Nat
  /-- Capacity of the Command Buffer (R7). -/
  C2 : Nat
  /-- ESC_BYTE, the escape sentinel (R8). -/
  escByte : Byte
  /-- TERM_BYTE, the command terminator (R9). -/
  termByte : Byte
  /-- CODE_TABLE (R11). -/
  codeTable : List TableEntry
  /-- LTRS_CODE (R12, R71). -/
  ltrsCode : Code
  /-- FIGS_CODE (R12, R71). -/
  figsCode : Code
  /-- SHIFT_RESET (R13). -/
  shiftReset : Shift
  /-- T_BIT, the standard bit-time, in a unit the spec leaves open (R14). -/
  tBit : Nat
deriving DecidableEq, Repr

end Sys2Proof
end

