-- ==== Sys2Proof/Machine/Parameters.lean ====
section
/-! DEFINITION. The Code Table as a function, the shift-switch codes, the inverse table, the check of
the parameter constraints, and the default configuration (spec/00_scope.md R6 to R14,
spec/30_encoding.md R71 to R77, spec/41_codec.md R93, R94, R101). -/

namespace Sys2Proof

/-- `Lookup(b)`, that is `CODE_TABLE(b)`: `none` is NoCode, `some (c, q)` the 5-bit code and the
required shift (R11, R93). -/
def lookup (c : Config) (b : Byte) : Option (Code × Shift) :=
  (c.codeTable.find? (fun e => e.char == b)).map (fun e => (e.code, e.shift))

/-- `SHIFT_CODE(q)`: LTRS_CODE for LETTERS, FIGS_CODE for FIGURES (R71, R94). -/
def shiftCode (c : Config) : Shift → Code
  | .letters => c.ltrsCode
  | .figures => c.figsCode

/-- The inverse table `Decode(c, q)`: the character with that code and required shift, or none. The
block never decodes; this serves statements about the Code Table (R101). -/
def charOf (c : Config) (code : Code) (q : Shift) : Option Byte :=
  (c.codeTable.find? (fun e => e.code == code && e.shift == q)).map TableEntry.char

/-- The character is not listed twice: the list is a function (R11). -/
def charsDistinct (t : List TableEntry) : Bool :=
  decide ((t.map fun e => e.char.toNat).Nodup)

/-- R72(c): the map from a mapped character to (code, reqShift) is injective. The pair is compared as
one number below 64. -/
def codesDistinct (t : List TableEntry) : Bool :=
  decide ((t.map fun e => 2 * e.code.toNat + (if e.shift = .figures then 1 else 0)).Nodup)

/-- The constraints a model checks before it initializes the block (R6, R7, R72, R137). R72(a) and
R72(d) hold of every `TableEntry` by its type. -/
def Config.ok (c : Config) : Bool :=
  decide (2 ≤ c.C1) && decide (2 ≤ c.C2) && decide (c.C2 ≤ 256)
    && c.codeTable.all (fun e => e.code != c.ltrsCode && e.code != c.figsCode)
    && charsDistinct c.codeTable && codesDistinct c.codeTable
    && (lookup c 0x41#8 == some (0x03#5, .letters))

/-- The default letters (R73). -/
def lettersTable : List TableEntry := [
  ⟨0x41, 0x03, .letters⟩, ⟨0x42, 0x19, .letters⟩, ⟨0x43, 0x0E, .letters⟩, ⟨0x44, 0x09, .letters⟩,
  ⟨0x45, 0x01, .letters⟩, ⟨0x46, 0x0D, .letters⟩, ⟨0x47, 0x1A, .letters⟩, ⟨0x48, 0x14, .letters⟩,
  ⟨0x49, 0x06, .letters⟩, ⟨0x4A, 0x0B, .letters⟩, ⟨0x4B, 0x0F, .letters⟩, ⟨0x4C, 0x12, .letters⟩,
  ⟨0x4D, 0x1C, .letters⟩, ⟨0x4E, 0x0C, .letters⟩, ⟨0x4F, 0x18, .letters⟩, ⟨0x50, 0x16, .letters⟩,
  ⟨0x51, 0x17, .letters⟩, ⟨0x52, 0x0A, .letters⟩, ⟨0x53, 0x05, .letters⟩, ⟨0x54, 0x10, .letters⟩,
  ⟨0x55, 0x07, .letters⟩, ⟨0x56, 0x1E, .letters⟩, ⟨0x57, 0x13, .letters⟩, ⟨0x58, 0x1D, .letters⟩,
  ⟨0x59, 0x15, .letters⟩, ⟨0x5A, 0x11, .letters⟩]

/-- The default format characters: space, CR, LF (R74, decision D8). -/
def formatTable : List TableEntry := [
  ⟨0x20, 0x04, .letters⟩, ⟨0x0D, 0x08, .letters⟩, ⟨0x0A, 0x02, .letters⟩]

/-- The default figures common to both variants: `- ? : 3 8 ( ) . ,` and `9 0 1 4 5 7 2 / 6` (R75). -/
def figuresTable : List TableEntry := [
  ⟨0x2D, 0x03, .figures⟩, ⟨0x3F, 0x19, .figures⟩, ⟨0x3A, 0x0E, .figures⟩, ⟨0x33, 0x01, .figures⟩,
  ⟨0x38, 0x06, .figures⟩, ⟨0x28, 0x0F, .figures⟩, ⟨0x29, 0x12, .figures⟩, ⟨0x2E, 0x1C, .figures⟩,
  ⟨0x2C, 0x0C, .figures⟩, ⟨0x39, 0x18, .figures⟩, ⟨0x30, 0x16, .figures⟩, ⟨0x31, 0x17, .figures⟩,
  ⟨0x34, 0x0A, .figures⟩, ⟨0x35, 0x10, .figures⟩, ⟨0x37, 0x07, .figures⟩, ⟨0x32, 0x13, .figures⟩,
  ⟨0x2F, 0x1D, .figures⟩, ⟨0x36, 0x15, .figures⟩]

/-- The default figures that depend on FIGS_VARIANT, keys D, F, G, H, J, S, V, Z (R76). -/
def variantTable : FigsVariant → List TableEntry
  | .ita2Intl => [
    ⟨0x05, 0x09, .figures⟩, ⟨0x07, 0x0B, .figures⟩, ⟨0x27, 0x05, .figures⟩,
    ⟨0x3D, 0x1E, .figures⟩, ⟨0x2B, 0x11, .figures⟩]
  | .usTty => [
    ⟨0x24, 0x09, .figures⟩, ⟨0x21, 0x0D, .figures⟩, ⟨0x26, 0x1A, .figures⟩, ⟨0x23, 0x14, .figures⟩,
    ⟨0x27, 0x0B, .figures⟩, ⟨0x07, 0x05, .figures⟩, ⟨0x3B, 0x1E, .figures⟩, ⟨0x22, 0x11, .figures⟩]

/-- The default Code Table (R73 to R77). -/
def defaultTable (v : FigsVariant) : List TableEntry :=
  lettersTable ++ formatTable ++ figuresTable ++ variantTable v

/-- A configuration with the defaults of R8, R9, R12, R13 and R73 to R77 and the open parameters
C1, C2, FIGS_VARIANT and T_BIT given. -/
def Config.standard (v : FigsVariant) (c1 c2 tBit : Nat) : Config where
  C1 := c1
  C2 := c2
  escByte := 0x5C
  termByte := 0x0A
  codeTable := defaultTable v
  ltrsCode := 0x1F
  figsCode := 0x1B
  shiftReset := .letters
  tBit := tBit

/-- The configuration of `State.reset`. DESIGN CHOICE (unsafe, log 1): C1 = C2 = 8 as in
spec/95_test_vectors.md, FIGS_VARIANT = ITA2_INTL, T_BIT = 1 unit. -/
def Config.default : Config := Config.standard .ita2Intl 8 8 1

/-- CMD_PREFIX, used by the host's side of the contract only (R10, R117). -/
def cmdPrefix : Byte := 0x2B

/-- Twice the interval from a tick to the next, in the unit of T_BIT: `1.5 × T_BIT` when the tick
left LONG and `T_BIT` when it left STD (R111), doubled so that it is a whole number. -/
def Config.twiceInterval (c : Config) : Period → Nat
  | .long => 3 * c.tBit
  | .std => 2 * c.tBit

end Sys2Proof
end

