-- ==== Sys2Proof/Syntax.lean ====
section
/-! DEFINITION. The thirteen operations of spec/opcode_table.json, with the operand each takes from
its event word (R84). -/

namespace Sys2Proof

/-- One constructor per row of the opcode table. A BYTE operation carries its byte `b = ev[7:0]`,
HOST_READ its index `i = ev[7:0]`; TICK operations and HOST_ACK carry nothing (R83, R84). -/
inductive Instr where
  /-- ENTER_CMD (R88) -/
  | enterCmd (b : Byte)
  /-- TEXT_PUT (R89) -/
  | textPut (b : Byte)
  /-- CMD_END (R90) -/
  | cmdEnd (b : Byte)
  /-- CMD_PUT (R91) -/
  | cmdPut (b : Byte)
  /-- CMD_DROP (R92) -/
  | cmdDrop (b : Byte)
  /-- TICK_START_EMPTY (R102) -/
  | tickStartEmpty
  /-- TICK_START_DATA (R103) -/
  | tickStartData
  /-- TICK_START_SHIFT (R104) -/
  | tickStartShift
  /-- TICK_START_NOCODE (R105) -/
  | tickStartNoCode
  /-- TICK_BIT (R106) -/
  | tickBit
  /-- TICK_STOP (R107) -/
  | tickStop
  /-- HOST_ACK (R114) -/
  | hostAck
  /-- HOST_READ (R115) -/
  | hostRead (i : Byte)
deriving DecidableEq, Repr

end Sys2Proof
end

