-- ==== Sys2Proof/WellFormed.lean ====
section
/-! DEFINITION. When an operation's operand is one its encoding admits under a configuration: the
part of the opcode table's conditions that speaks of the event word alone (R79, R81, R82). The part
that speaks of the state is `Instr.condition` in Decode.lean. -/

namespace Sys2Proof

/-- R88: `b = ESC_BYTE`. R89: `b != ESC_BYTE`. R90: `b = TERM_BYTE`. R91, R92: `b != TERM_BYTE`.
R115: `i < C2`. The TICK operations and HOST_ACK have no operand (R84). -/
def Instr.wellFormed (c : Config) : Instr → Bool
  | .enterCmd b => b == c.escByte
  | .textPut b => b != c.escByte
  | .cmdEnd b => b == c.termByte
  | .cmdPut b => b != c.termByte
  | .cmdDrop b => b != c.termByte
  | .tickStartEmpty => true
  | .tickStartData => true
  | .tickStartShift => true
  | .tickStartNoCode => true
  | .tickBit => true
  | .tickStop => true
  | .hostAck => true
  | .hostRead i => decide (i.toNat < c.C2)

end Sys2Proof
end

