-- ==== Sys2Proof/Decode.lean ====
section
/-! DEFINITION. The decoder and the encoder of event words (spec/30_encoding.md §3, R78 to R86).
A word alone names an event (BYTE, TICK, HOST_ACK, HOST_READ) or is refused by name (R82); the event
and the part of the state that R79 and R80 name select the operation. -/

namespace Sys2Proof

/-! ## The word -/

/-- KIND, `ev[9:8]` (R78). -/
def evKind (ev : EventWord) : BitVec 2 := ev.extractLsb' 8 2

/-- PAYLOAD, `ev[7:0]` (R78, R84). -/
def evPayload (ev : EventWord) : Byte := ev.extractLsb' 0 8

/-- The event word with a given KIND and PAYLOAD: `{kind, payload}` (R78). -/
def evWord (kind : BitVec 2) (payload : Byte) : EventWord := kind ++ payload

/-- What a word says without the state (R78, R81). -/
inductive Event where
  | byte (b : Byte)
  | tick
  | ack
  | read (i : Byte)
deriving DecidableEq, Repr

/-- Why the decoder gives no operation. The first three are the refusals of R82. The last is no
fault of the word: slot 0 of a nonempty buffer selects its operation by the character at `rd` (R80),
and that cell cannot be read (R49). -/
inductive Reject where
  | reservedTickPayload
  | reservedAckPayload
  | readIndexOutOfRange
  | unreadableText
deriving DecidableEq, Repr

/-- The events and the refusals of R78, R81 and R82; `c2` is the capacity of the Command Buffer. -/
def decodeWord (c2 : Nat) (ev : EventWord) : Except Reject Event :=
  if evKind ev = 0b00#2 then .ok (.byte (evPayload ev))
  else if evKind ev = 0b01#2 then
    if evPayload ev = 0x00#8 then .ok .tick else .error .reservedTickPayload
  else if evKind ev = 0b10#2 then
    if evPayload ev = 0x00#8 then .ok .ack else .error .reservedAckPayload
  else
    if (evPayload ev).toNat < c2 then .ok (.read (evPayload ev)) else .error .readIndexOutOfRange

/-! ## The selection by state -/

/-- What the selection of an operation reads: the configuration, `mode` and `coff` for BYTE events
(R79), and for TICK events `slot`, whether the Text Ring Buffer is empty, the character at `rd` (none
where it cannot be read) and `shift` (R80). -/
structure View where
  cfg : Config
  mode : Mode
  coff : Nat
  slot : Slot
  shift : Shift
  empty : Bool
  oldest : Option Byte
deriving DecidableEq, Repr

/-- The three outcomes of the codec (R95, R96, R97). -/
inductive CodecCase where
  | noCode
  | data
  | shift
deriving DecidableEq, Repr

/-- Which outcome a character has in a shift state (R98). -/
def codecCase (c : Config) (current : Shift) (b : Byte) : CodecCase :=
  match lookup c b with
  | none => .noCode
  | some (_, q) => if q = current then .data else .shift

/-- The codec's outcome for the oldest unread character, none where it cannot be read (R80). -/
def View.codec (v : View) : Option CodecCase := v.oldest.map (codecCase v.cfg v.shift)

/-- The condition column of R79 and R80, and of the opcode table, as far as it speaks of the state;
what it says of the byte is `Instr.wellFormed`. -/
def Instr.condition (v : View) : Instr → Bool
  | .enterCmd _ => v.mode == .data
  | .textPut _ => v.mode == .data
  | .cmdEnd _ => v.mode == .command
  | .cmdPut _ => v.mode == .command && decide (v.coff < v.cfg.C2 - 1)
  | .cmdDrop _ => v.mode == .command && decide (v.coff ≥ v.cfg.C2 - 1)
  | .tickStartEmpty => v.slot == 0 && v.empty
  | .tickStartData => v.slot == 0 && !v.empty && v.codec == some .data
  | .tickStartShift => v.slot == 0 && !v.empty && v.codec == some .shift
  | .tickStartNoCode => v.slot == 0 && !v.empty && v.codec == some .noCode
  | .tickBit => decide (1 ≤ v.slot.val ∧ v.slot.val ≤ 5)
  | .tickStop => v.slot == 6
  | .hostAck => true
  | .hostRead _ => true

/-- `OnByte(b)`: which operation a received byte names (R79, R87). -/
def onByte (v : View) (b : Byte) : Instr :=
  match v.mode with
  | .data => if b = v.cfg.escByte then .enterCmd b else .textPut b
  | .command =>
    if b = v.cfg.termByte then .cmdEnd b
    else if v.coff < v.cfg.C2 - 1 then .cmdPut b
    else .cmdDrop b

/-- `OnTick()`: which operation a tick names (R80, R108). -/
def onTick (v : View) : Except Reject Instr :=
  if v.slot = 0 then
    if v.empty then .ok .tickStartEmpty
    else match v.codec with
      | none => .error .unreadableText
      | some .noCode => .ok .tickStartNoCode
      | some .data => .ok .tickStartData
      | some .shift => .ok .tickStartShift
  else if v.slot = 6 then .ok .tickStop
  else .ok .tickBit

/-- The operation an event names in a state (R79, R80, R81). -/
def select (v : View) : Event → Except Reject Instr
  | .byte b => .ok (onByte v b)
  | .tick => onTick v
  | .ack => .ok .hostAck
  | .read i => .ok (.hostRead i)

/-- The decoder: refusals of the word come before anything the selection would read (R128). -/
def decode (v : View) (ev : EventWord) : Except Reject Instr :=
  match decodeWord v.cfg.C2 ev with
  | .error r => .error r
  | .ok e => select v e

/-! ## The encoder -/

/-- `0x000 | b` (R83, R85). -/
def evByte (b : Byte) : EventWord := evWord 0b00#2 b

/-- `0x100` (R80, R83, R85). -/
def evTick : EventWord := 0x100#10

/-- `0x200` (R81, R83, R85). -/
def evAck : EventWord := 0x200#10

/-- `0x300 | i` (R81, R83, R85). -/
def evRead (i : Byte) : EventWord := evWord 0b11#2 i

/-- The event word of an operation (R83, R84). -/
def encode : Instr → EventWord
  | .enterCmd b => evByte b
  | .textPut b => evByte b
  | .cmdEnd b => evByte b
  | .cmdPut b => evByte b
  | .cmdDrop b => evByte b
  | .tickStartEmpty => evTick
  | .tickStartData => evTick
  | .tickStartShift => evTick
  | .tickStartNoCode => evTick
  | .tickBit => evTick
  | .tickStop => evTick
  | .hostAck => evAck
  | .hostRead i => evRead i

/-! ## The event-trace syntax -/

/-- `BYTES "text"`: one BYTE per character, in order (R86). -/
def evBytes (bs : List Byte) : List EventWord := bs.map evByte

/-- `TICKS n` (R86). -/
def evTicks (n : Nat) : List EventWord := List.replicate n evTick

/-- `FRAME`, which is `TICKS 7` (R86). -/
def evFrame : List EventWord := evTicks 7

/-- `FRAMES n`, which is `TICKS 7n` (R86). -/
def evFrames (n : Nat) : List EventWord := evTicks (7 * n)

/-! ## The opcode table -/

/-- One row of spec/opcode_table.json: its mnemonic, and the mask and match of its word. -/
structure OpcodeRow where
  mnemonic : String
  mask : EventWord
  matched : EventWord
deriving DecidableEq, Repr

/-- The row of an operation. Where a row's condition compares the byte with ESC_BYTE or TERM_BYTE,
"the table's `match` field holds the default value", and "a decoder compares with the configured
parameter" (R83): so `c` gives the byte here. -/
def opcodeRow (c : Config) : Instr → OpcodeRow
  | .enterCmd _ => ⟨"ENTER_CMD", 0x3FF, evWord 0b00#2 c.escByte⟩
  | .textPut _ => ⟨"TEXT_PUT", 0x300, 0x000⟩
  | .cmdEnd _ => ⟨"CMD_END", 0x3FF, evWord 0b00#2 c.termByte⟩
  | .cmdPut _ => ⟨"CMD_PUT", 0x300, 0x000⟩
  | .cmdDrop _ => ⟨"CMD_DROP", 0x300, 0x000⟩
  | .tickStartEmpty => ⟨"TICK_START_EMPTY", 0x3FF, 0x100⟩
  | .tickStartData => ⟨"TICK_START_DATA", 0x3FF, 0x100⟩
  | .tickStartShift => ⟨"TICK_START_SHIFT", 0x3FF, 0x100⟩
  | .tickStartNoCode => ⟨"TICK_START_NOCODE", 0x3FF, 0x100⟩
  | .tickBit => ⟨"TICK_BIT", 0x3FF, 0x100⟩
  | .tickStop => ⟨"TICK_STOP", 0x3FF, 0x100⟩
  | .hostAck => ⟨"HOST_ACK", 0x3FF, 0x200⟩
  | .hostRead _ => ⟨"HOST_READ", 0x300, 0x300⟩

/-! ## The host's question about a table word -/

/-- A table word on the ten lines of port `ev`: of the `nbits` bits given, the low ten; bits above
`nbits` are 0. DESIGN CHOICE (safe, log 22). -/
def tableWord (nbits w : Nat) : EventWord := BitVec.ofNat 10 (w % 2 ^ nbits)

/-- The view of a state just after reset (R137): DATA mode, slot 0, an empty buffer. -/
def View.atReset (c : Config) : View where
  cfg := c
  mode := .data
  coff := 0
  slot := 0
  shift := c.shiftReset
  empty := true
  oldest := none

/-- The operation a table word names as the first event after reset. Six rows of the table share the
word 0x100 and three share 0x000 to 0x0FF (R83): only the state tells them apart, and this question
names no state. DESIGN CHOICE (safe, log 3). -/
def decodeTableWord (nbits w : Nat) : Option Instr :=
  match decode (View.atReset Config.default) (tableWord nbits w) with
  | .ok i => some i
  | .error _ => none

end Sys2Proof
end

