-- ==== Sys2Proof/Machine/State.lean ====
section
/-! DEFINITION. The state of the block (spec/10_state.md R20), the fields the model adds to run it
(the parameters, the event stream, the observation trace), the reasons a step can stop, and reset
(spec/70_reset_and_hazards.md R137). -/

namespace Sys2Proof.Machine

/-- A buffer's written cells: (index, byte), indices strictly rising. A cell that is not listed is
unwritten (R20, R32, R44). -/
abbrev Memory := List Host.Cell

/-- The two memories (R44). -/
inductive Space where
  | tbuf
  | cbuf
deriving DecidableEq, Repr

/-- "The block state `s` is this record. There is no other state." (R20) -/
structure Block where
  /-- Shift State (R22). -/
  shift : Shift
  /-- Mode Demultiplexer mode (R23). -/
  mode : Mode
  /-- Text Ring Buffer read cursor (R24). -/
  rd : Nat
  /-- Text Ring Buffer write cursor (R25). -/
  wr : Nat
  /-- Command Buffer write offset (R26). -/
  coff : Nat
  /-- The "command ready" signal, output `cmd_ready` (R27). -/
  ready : Bool
  /-- Pending Code (R28). -/
  pending : Pending
  /-- Bit Slot Counter: the slot the next tick will run (R29). -/
  slot : Slot
  /-- The output-line driver, output `line` (R30). -/
  line : Level
  /-- The tick period select, output `period_sel` (R31). -/
  period : Period
  /-- Text Ring Buffer cells (R32). -/
  tbuf : Memory
  /-- Command Buffer cells (R32). -/
  cbuf : Memory
deriving DecidableEq, Repr

/-- One entry of the observation trace (R150). -/
inductive Obs where
  /-- After a TICK: `(s.line, s.period)`. -/
  | line (level : Level) (period : Period)
  /-- After a HOST_READ: the byte on `rdata`. -/
  | rdata (b : Byte)
deriving DecidableEq, Repr

/-- The machine: the block, its parameters, the event words the environment has put on port `ev`
(oldest first, log 2) and the observation trace (oldest first, log 4). -/
structure State extends Block where
  /-- The parameters, which no step writes (R21, log 1). -/
  cfg : Config
  /-- The event words not yet taken, one strobe of `ev_valid` each (R34, log 2). -/
  input : List EventWord
  /-- The observation trace (R150, log 4). -/
  trace : List Obs
deriving DecidableEq, Repr

/-- Why a step faults. The hardware has none of these (R121); each is the model's own (R18). -/
inductive Fault where
  /-- Raised by a read or a write of a cell index outside its buffer (R49, log 7). Safe: no state
  that the block reaches does this (R35, R47). -/
  | indexOutOfRange
  /-- Raised by a read of a cell nothing has written since reset (R49, decision D16, log 6). Safe:
  the text path never does this (R42); a HOST_READ of such a cell stops. -/
  | readUnwritten
  /-- Raised when an operation is applied to a state or byte outside its condition (R18, R79, R80,
  log 5). Safe: the decoder never selects such an operation. -/
  | ruleNotApplicable
deriving DecidableEq, Repr

/-- Why a step is refused. The hardware has none of these (R82); each is the model's own. -/
inductive Refusal where
  /-- Raised by an arm of exec whose operation has no meaning yet. Safe. -/
  | notModelled (mnemonic : String)
  /-- Raised by the decoder: KIND 01 with a payload other than 0x00 (R82). Safe. -/
  | reservedTickPayload
  /-- Raised by the decoder: KIND 10 with a payload other than 0x00 (R82). Safe. -/
  | reservedAckPayload
  /-- Raised by the decoder and by HOST_READ: an index `i >= C2` (R82, R115). Safe. -/
  | readIndexOutOfRange
  /-- Raised by boot and by step: the configuration breaks a parameter constraint (R6, R7, R18, R72,
  R137, log 9). Safe. -/
  | badConfiguration
deriving DecidableEq, Repr

/-- The three outcomes of a step (R18). -/
abbrev Result := Host.Outcome State Fault Refusal

/-- The machine right after reset under a configuration: every field at the value R137 gives it, no
event waiting and nothing observed. -/
def State.resetOf (c : Config) : State where
  shift := c.shiftReset
  mode := .data
  rd := 0
  wr := 0
  coff := 0
  ready := false
  pending := .noData
  slot := 0
  line := .mark
  period := .std
  tbuf := []
  cbuf := []
  cfg := c
  input := []
  trace := []

/-- The machine right after reset (R137), under the default configuration (log 1). -/
def State.reset : State := State.resetOf Config.default

end Sys2Proof.Machine
end

