-- ==== Sys2Proof/Machine/Ops.lean ====
section
/-! DEFINITION. The shared operations: the two memories (spec/20_memory.md R49, R50), the Text Ring
Buffer (R51 to R55), how an operation's condition is required, the event stream, the observation
trace, and what the decoder sees of a state. The block takes no exception and returns from none
(spec/60_exceptions.md R121, R123, R124), so there is no operation for either. -/

namespace Sys2Proof.Machine

/-! ## Cells -/

/-- The byte listed at an index; none where the cell is unwritten (R20, R32). -/
def Memory.read : Memory → Nat → Option Byte
  | [], _ => none
  | (a, b) :: m, i => if i = a then some b else Memory.read m i

/-- The cells after a byte is stored at an index (R50), in canonical form. -/
def Memory.write : Memory → Nat → Byte → Memory
  | [], i, v => [(i, v)]
  | (a, b) :: m, i, v =>
    if i < a then (i, v) :: (a, b) :: m
    else if i = a then (i, v) :: m
    else (a, b) :: Memory.write m i v

/-- The canonical form: indices strictly rising. An unlisted cell holds no value, so no listed byte
equals what an unlisted cell reads as. -/
abbrev Memory.wf (m : Memory) : Prop := List.Pairwise (fun x y => x.1 < y.1) m

/-- `size(SPACE)` (R44). -/
def size (s : State) : Space → Nat
  | .tbuf => s.cfg.C1
  | .cbuf => s.cfg.C2

/-- The cells of a memory. -/
def cells (s : State) : Space → Memory
  | .tbuf => s.tbuf
  | .cbuf => s.cbuf

/-- The state with the cells of a memory replaced. -/
def setCells (s : State) (m : Memory) : Space → State
  | .tbuf => { s with tbuf := m }
  | .cbuf => { s with cbuf := m }

/-- `MemRead(SPACE, i, 1)` (R49). -/
def memRead (sp : Space) (i : Nat) (s : State) : Except Fault Byte :=
  if i ≥ size s sp then .error .indexOutOfRange
  else match (cells s sp).read i with
    | none => .error .readUnwritten
    | some b => .ok b

/-- `MemWrite(SPACE, i, 1, v)` (R50). An index outside the memory names no cell (R44, R47): the model
faults. DEDUCED (safe, log 7). -/
def memWrite (sp : Space) (i : Nat) (v : Byte) (s : State) : Except Fault State :=
  if i ≥ size s sp then .error .indexOutOfRange
  else .ok (setCells s ((cells s sp).write i v) sp)

/-! ## Outcomes -/

/-- An operation that ends in a state or a fault, as an outcome. -/
def finish : Except Fault State → Result
  | .ok s => .next s
  | .error f => .fault f

/-- A rule's condition. "Fault(reason) means a rule was applied to a state it has no meaning for"
(R18): where the condition does not hold, that fault. DESIGN CHOICE (safe, log 5). -/
def require (p : Prop) [Decidable p] (k : Result) : Result :=
  if p then k else .fault .ruleNotApplicable

/-- `emit(x)` appends to the observation trace (R17, R150). -/
def emit (x : Obs) (s : State) : State := { s with trace := s.trace ++ [x] }

/-! ## The Text Ring Buffer -/

/-- `TextEmpty(s) := (s.rd = s.wr)` (R51). -/
def textEmpty (s : State) : Bool := s.rd == s.wr

/-- The number of unread characters, `(s.wr - s.rd) mod C1` (R53), without a negative difference. -/
def unread (s : State) : Nat := (s.wr + (s.cfg.C1 - s.rd)) % s.cfg.C1

/-- The cursor after one step round the ring, `(x + 1) mod C1` (R16). -/
def nextCursor (s : State) (x : Nat) : Nat := (x + 1) % s.cfg.C1

/-- `TextPush(b)`: the cell first, then the write cursor; no full check (R52, R54). -/
def textPush (b : Byte) (s : State) : Except Fault State :=
  match memWrite .tbuf s.wr b s with
  | .error f => .error f
  | .ok t => .ok { t with wr := nextCursor t t.wr }

/-- `TextPeek()` (R55). -/
def textPeek (s : State) : Except Fault Byte := memRead .tbuf s.rd s

/-- `TextAdvance()` (R55). -/
def textAdvance (s : State) : State := { s with rd := nextCursor s s.rd }

/-- The unread characters, oldest first: the cells `rd, rd+1, ..., wr-1` modulo C1 (R42, R56). -/
def unreadText (s : State) : List (Option Byte) :=
  (List.range (unread s)).map fun j => s.tbuf.read ((s.rd + j) % s.cfg.C1)

/-! ## Events and the decoder -/

/-- The state with an event word put on `ev`, to be the next one taken. -/
def pushEvent (ev : EventWord) (s : State) : State := { s with input := ev :: s.input }

/-- The state after the environment has sent an event word, behind those already waiting. -/
def sendEvent (ev : EventWord) (s : State) : State := { s with input := s.input ++ [ev] }

/-- The next event word and the state with that word taken (R19); none when no event has come. -/
def nextEvent (s : State) : Option (EventWord × State) :=
  match s.input with
  | [] => none
  | ev :: rest => some (ev, { s with input := rest })

/-- What the decoder sees of a state (R79, R80). -/
def view (s : State) : View where
  cfg := s.cfg
  mode := s.mode
  coff := s.coff
  slot := s.slot
  shift := s.shift
  empty := textEmpty s
  oldest := match textPeek s with
    | .ok b => some b
    | .error _ => none

/-- The outcome of an event the decoder gives no operation for: the refusals of R82, or the fault of
the read that the selection needs (R49, R108). -/
def stop (s : State) : Reject → Result
  | .reservedTickPayload => .refused .reservedTickPayload
  | .reservedAckPayload => .refused .reservedAckPayload
  | .readIndexOutOfRange => .refused .readIndexOutOfRange
  | .unreadableText => .fault (if s.rd ≥ s.cfg.C1 then .indexOutOfRange else .readUnwritten)

/-! ## Initialization -/

/-- Initialization: the configuration is checked, then every field is put at its reset value (R137,
R138). -/
def boot (c : Config) : Result :=
  if c.ok then .next (State.resetOf c) else .refused .badConfiguration

end Sys2Proof.Machine
end

