-- ==== Sys2Proof/Machine/Operands.lean ====
section
/-! DEFINITION. The operands of the operations (spec/30_encoding.md R84), the bits of a code on the
line (R68), the value encodings of the registers (spec/10_state.md R20, R28), and which agent sends
an operation's event (spec/60_exceptions.md R125, R130). -/

namespace Sys2Proof.Machine

/-- The HOST_READ operand, `zext(ev[7:0])` (R84). -/
def readIndex (i : Byte) : Nat := i.toNat

/-- The 5-bit code of `Data(c)` or `Shift(c)`; none for NoData (R28, R106). -/
def pendingCode : Pending → Option Code
  | .noData => none
  | .data c => some c
  | .shift c => some c

/-- The line level of bit `n` of a code: 1 = MARK, 0 = SPACE (R68). -/
def bitLevel (c : Code) (n : Nat) : Level := if c.getLsbD n then .mark else .space

/-- LETTERS = 0, FIGURES = 1 (R20). -/
def shiftBits : Shift → BitVec 1
  | .letters => 0
  | .figures => 1

/-- DATA = 0, COMMAND = 1 (R20). -/
def modeBits : Mode → BitVec 1
  | .data => 0
  | .command => 1

/-- SPACE = 0, MARK = 1 (R20, R30). -/
def levelBits : Level → BitVec 1
  | .space => 0
  | .mark => 1

/-- STD = 0, LONG = 1 (R20, R31). -/
def periodBits : Period → BitVec 1
  | .std => 0
  | .long => 1

/-- The Bit Slot Counter in its three bits (R20, R29). -/
def slotBits (k : Slot) : BitVec 3 := BitVec.ofNat 3 k.val

/-- The Pending Code in its seven bits, `{kind[1:0], c[4:0]}` (R28). -/
def pendingBits : Pending → BitVec 7
  | .noData => 0b00#2 ++ 0#5
  | .data c => 0b01#2 ++ c
  | .shift c => 0b10#2 ++ c

/-- The agents that send events (R130). -/
inductive Agent where
  | tickTimer
  | byteSource
  | host
deriving DecidableEq, Repr

/-- Which agent's events name an operation (R125). -/
def agentOf : Instr → Agent
  | .enterCmd _ => .byteSource
  | .textPut _ => .byteSource
  | .cmdEnd _ => .byteSource
  | .cmdPut _ => .byteSource
  | .cmdDrop _ => .byteSource
  | .tickStartEmpty => .tickTimer
  | .tickStartData => .tickTimer
  | .tickStartShift => .tickTimer
  | .tickStartNoCode => .tickTimer
  | .tickBit => .tickTimer
  | .tickStop => .tickTimer
  | .hostAck => .host
  | .hostRead _ => .host

end Sys2Proof.Machine
end

