-- ==== Sys2Proof/Machine/Flags.lean ====
section
/-! DEFINITION. The flag and the outputs: the command-ready flag (spec/10_state.md R27), the output
line and the period select (R30, R31), and the output ports (R34). -/

namespace Sys2Proof.Machine

/-- Raise "command ready"; a signal already pending is not duplicated (R27, R90). -/
def raiseReady (s : State) : State := { s with ready := true }

/-- Clear "command ready" (R27, R114). -/
def clearReady (s : State) : State := { s with ready := false }

/-- The mode and the command offset, which ENTER_CMD and CMD_END write together (R26, R88, R90). -/
def enterMode (m : Mode) (s : State) : State := { s with mode := m, coff := 0 }

/-- The line level at a start slot: the start bit is driven unless nothing is sent (R102 to R105;
conflict C5). -/
def startLevel (p : Pending) (s : State) : Level :=
  match p with
  | .noData => s.line
  | .data _ => .space
  | .shift _ => .space

/-- The line level at data slot `k`: bit `k - 1` of the code; with NoData the line is not written
(R68, R106). -/
def slotLevel (k : Nat) (s : State) : Level :=
  match pendingCode s.pending with
  | none => s.line
  | some c => bitLevel c (k - 1)

/-- The `(line, period)` observation after a TICK (R150). -/
def emitLine (s : State) : State := emit (.line s.line s.period) s

/-- The levels on the output ports (R34). `rdata` is the byte of the last HOST_READ, none before the
first. -/
structure Ports where
  line : BitVec 1
  periodSel : BitVec 1
  cmdReady : BitVec 1
  rdata : Option Byte
deriving DecidableEq, Repr

/-- The last byte a HOST_READ put on `rdata` (R115, log 4). -/
def lastRead : List Obs → Option Byte
  | [] => none
  | .rdata b :: t => (lastRead t).orElse fun _ => some b
  | .line _ _ :: t => lastRead t

/-- The output ports of a state (R34). -/
def ports (s : State) : Ports where
  line := levelBits s.line
  periodSel := periodBits s.period
  cmdReady := BitVec.ofBool s.ready
  rdata := lastRead s.trace

end Sys2Proof.Machine
end

