-- ==== Sys2Proof/Machine/Demux.lean ====
section
/-! DEFINITION. The Mode Demultiplexer: the five operations of a BYTE event (spec/40_demux.md). -/

namespace Sys2Proof.Machine

/-- R88 ENTER_CMD: `mode <- COMMAND`, `coff <- 0`. The cells and `ready` are not changed. -/
def execEnterCmd (b : Byte) (s : State) : Result :=
  require (s.mode = .data ∧ b = s.cfg.escByte) (.next (enterMode .command s))

/-- R89 TEXT_PUT: `TextPush(b)`. -/
def execTextPut (b : Byte) (s : State) : Result :=
  require (s.mode = .data ∧ b ≠ s.cfg.escByte) (finish (textPush b s))

/-- The effect of CMD_END: NUL at `coff`, DATA mode, `ready <- 1`, `coff <- 0` (R90). -/
def endCommand (s : State) : Except Fault State :=
  match memWrite .cbuf s.coff 0x00#8 s with
  | .error f => .error f
  | .ok t => .ok (raiseReady (enterMode .data t))

/-- R90 CMD_END. -/
def execCmdEnd (b : Byte) (s : State) : Result :=
  require (s.mode = .command ∧ b = s.cfg.termByte) (finish (endCommand s))

/-- The effect of CMD_PUT: the byte at `coff`, then `coff <- coff + 1` (R91). -/
def appendCommand (b : Byte) (s : State) : Except Fault State :=
  match memWrite .cbuf s.coff b s with
  | .error f => .error f
  | .ok t => .ok { t with coff := t.coff + 1 }

/-- R91 CMD_PUT. -/
def execCmdPut (b : Byte) (s : State) : Result :=
  require (s.mode = .command ∧ b ≠ s.cfg.termByte ∧ s.coff < s.cfg.C2 - 1)
    (finish (appendCommand b s))

/-- R92 CMD_DROP: the byte is discarded, no state changes. -/
def execCmdDrop (b : Byte) (s : State) : Result :=
  require (s.mode = .command ∧ b ≠ s.cfg.termByte ∧ s.coff ≥ s.cfg.C2 - 1) (.next s)

end Sys2Proof.Machine
end

