-- ==== Sys2Proof/Machine/Codec.lean ====
section
/-! DEFINITION. The Shift-State Codec, a function the slot-0 tick calls (spec/41_codec.md). -/

namespace Sys2Proof.Machine

/-- `CodecResolve()` (R98): NoCode advances and sends nothing (R95), a character of the current shift
advances and sends its code (R96), one of the other shift sends the shift-switch code, moves the
Shift State and does not advance (R97). -/
def codecResolve (s : State) : Except Fault (Pending × State) :=
  match textPeek s with
  | .error f => .error f
  | .ok b =>
    match lookup s.cfg b with
    | none => .ok (.noData, textAdvance s)
    | some (c, q) =>
      if q = s.shift then .ok (.data c, textAdvance s)
      else .ok (.shift (shiftCode s.cfg q), { s with shift := q })

end Sys2Proof.Machine
end

