-- ==== Sys2Proof/Machine/FrameEngine.lean ====
section
/-! DEFINITION. The Bit-Timing Engine: the six operations of a TICK event (spec/42_frame_engine.md). -/

namespace Sys2Proof.Machine

/-- What every slot-0 tick does with the Pending Code it adopts: `pending`, the start bit where
something is sent, `period <- LONG`, `slot <- 1` (R102 to R105), and the observation (R150). -/
def startFrame (p : Pending) (s : State) : State :=
  emitLine { s with pending := p, line := startLevel p s, period := .long, slot := 1 }

/-- A slot-0 tick of a nonempty buffer whose codec outcome is one of those the operation takes
(R103, R104, R105). -/
def startFromCodec (takes : Pending → Bool) (s : State) : Result :=
  require (s.slot = 0 ∧ s.rd ≠ s.wr) <|
    match codecResolve s with
    | .error f => .fault f
    | .ok (p, t) => require (takes p = true) (.next (startFrame p t))

/-- The Pending Code is `Data(c)`. -/
def isData : Pending → Bool
  | .data _ => true
  | .noData => false
  | .shift _ => false

/-- The Pending Code is `Shift(c)`. -/
def isShift : Pending → Bool
  | .shift _ => true
  | .noData => false
  | .data _ => false

/-- R102 TICK_START_EMPTY. -/
def execTickStartEmpty (s : State) : Result :=
  require (s.slot = 0 ∧ s.rd = s.wr) (.next (startFrame .noData s))

/-- R103 TICK_START_DATA. -/
def execTickStartData (s : State) : Result := startFromCodec isData s

/-- R104 TICK_START_SHIFT. -/
def execTickStartShift (s : State) : Result := startFromCodec isShift s

/-- R105 TICK_START_NOCODE: the line is not driven ("zero line effect", conflict C5). -/
def execTickStartNoCode (s : State) : Result := startFromCodec (· == .noData) s

/-- The effect of a data slot: the line, `period <- STD`, `slot <- k + 1` (R106), and the observation
(R150). -/
def dataSlot (s : State) : State :=
  emitLine { s with line := slotLevel s.slot.val s, period := .std, slot := s.slot + 1 }

/-- R106 TICK_BIT. -/
def execTickBit (s : State) : Result :=
  require (1 ≤ s.slot.val ∧ s.slot.val ≤ 5) (.next (dataSlot s))

/-- The effect of the stop slot: `line <- MARK`, `pending <- NoData`, `slot <- 0` directly (R107), and
the observation (R150). -/
def stopSlot (s : State) : State :=
  emitLine { s with line := .mark, pending := .noData, slot := 0 }

/-- R107 TICK_STOP. -/
def execTickStop (s : State) : Result :=
  require (s.slot = 6) (.next (stopSlot s))

end Sys2Proof.Machine
end

