-- ==== Sys2Proof/Machine/HostPort.lean ====
section
/-! DEFINITION. The host interface: HOST_ACK and HOST_READ, and the host's side of the command
contract (spec/43_host.md). -/

namespace Sys2Proof.Machine

/-- R114 HOST_ACK: `ready <- 0`. -/
def execHostAck (s : State) : Result := .next (clearReady s)

/-- R115 HOST_READ: refused for `i >= C2`; else the cell's byte on `rdata`, observed (R150), and no
change of the block. -/
def execHostRead (i : Byte) (s : State) : Result :=
  if readIndex i ≥ s.cfg.C2 then .refused .readIndexOutOfRange
  else match memRead .cbuf (readIndex i) s with
    | .error f => .fault f
    | .ok b => .next (emit (.rdata b) s)

/-! ## The host's side of the contract, which the block never runs -/

/-- The bytes from an index up to, but not including, the first 0x00, within `n` cells; none where a
cell is unwritten or no 0x00 is found (R116). -/
def stringFrom (m : Memory) : Nat → Nat → Option (List Byte)
  | 0, _ => none
  | n + 1, i =>
    match m.read i with
    | none => none
    | some b => if b = 0x00#8 then some [] else (stringFrom m n (i + 1)).map (b :: ·)

/-- The command string a host reads (R116). -/
def commandString (s : State) : Option (List Byte) := stringFrom s.cbuf s.cfg.C2 0

/-- The prefix check, a host duty: a command whose first cell is not CMD_PREFIX is discarded whole
(R10, R117). -/
def hostAccepts (s : State) : Bool := s.cbuf.read 0 == some cmdPrefix

end Sys2Proof.Machine
end

