-- ==== Sys2Proof/Machine/Dispatch.lean ====
section
/-! DEFINITION. One arm per operation. -/

namespace Sys2Proof.Machine

def exec (i : Instr) (s : State) : Host.Outcome State Fault Refusal :=
  match i with
  -- spec/40_demux.md
  | .enterCmd b => Sys2Proof.Machine.execEnterCmd b s
  | .textPut b => Sys2Proof.Machine.execTextPut b s
  | .cmdEnd b => Sys2Proof.Machine.execCmdEnd b s
  | .cmdPut b => Sys2Proof.Machine.execCmdPut b s
  | .cmdDrop b => Sys2Proof.Machine.execCmdDrop b s
  -- spec/42_frame_engine.md
  | .tickStartEmpty => Sys2Proof.Machine.execTickStartEmpty s
  | .tickStartData => Sys2Proof.Machine.execTickStartData s
  | .tickStartShift => Sys2Proof.Machine.execTickStartShift s
  | .tickStartNoCode => Sys2Proof.Machine.execTickStartNoCode s
  | .tickBit => Sys2Proof.Machine.execTickBit s
  | .tickStop => Sys2Proof.Machine.execTickStop s
  -- spec/43_host.md
  | .hostAck => Sys2Proof.Machine.execHostAck s
  | .hostRead k => Sys2Proof.Machine.execHostRead k s

end Sys2Proof.Machine
end

