-- ==== Sys2Proof/Machine/Step.lean ====
section
/-! DEFINITION. One step: the next event word is taken, decoded in the state, and its operation run
(spec/00_scope.md R18, R19). -/

namespace Sys2Proof.Machine

/-- One event, one atomic transition (R19). A configuration that breaks a constraint is refused (R18,
R137, log 9). Where no event has come, the block keeps its state (R136, log 2). A word that names no
operation is refused before any read (R82, R128). -/
def step (s : State) : Host.Outcome State Fault Refusal :=
  if s.cfg.ok then
    match nextEvent s with
    | none => .next s
    | some (ev, t) =>
      match decode (view t) ev with
      | .ok i => exec i t
      | .error r => stop t r
  else .refused .badConfiguration

/-- The state with a table word put on `ev`, to be the next event taken: the block stores no program,
and its events come from outside (R33, R58, log 3). -/
def State.withFetchWord (s : State) (nbits w : Nat) : State := pushEvent (tableWord nbits w) s

end Sys2Proof.Machine
end

