-- ==== Sys2Proof/Machine/Environment.lean ====
section
/-! DEFINITION. The environment of the block: what each agent may send, and what the tick timer and the
byte source must do (spec/43_host.md R120, spec/60_exceptions.md R125, R127, R130, R132, R133). The duties
are premises on an infinite run, not steps of the block ("A model states that as a fairness premise",
spec/70_reset_and_hazards.md R151, R152; log 23). -/

namespace Sys2Proof.Machine

/-- The agent whose events have a word's KIND (R78, R125). -/
def senderOf (ev : EventWord) : Agent :=
  if evKind ev = 0b00#2 then .byteSource
  else if evKind ev = 0b01#2 then .tickTimer
  else .host

/-- The words an agent may send; it may send no other (R120, columns "may do" and "may not do"). The
tick timer's one word is not sent at will: it is its duty, below. -/
def maySend (c : Config) (a : Agent) (ev : EventWord) : Bool :=
  match a with
  | .host => ev == evAck || (evKind ev == 0b11#2 && decide ((evPayload ev).toNat < c.C2))
  | .byteSource => evKind ev == 0b00#2
  | .tickTimer => ev == evTick

/-- Every word of a run is one its agent may send (R120). -/
def LawfulSends (c : Config) (ev : Nat → EventWord) : Prop :=
  ∀ n, maySend c (senderOf (ev n)) (ev n) = true

/-- An infinite run: initialization, then one step for each event word, in the order the agents' events
are taken (R19, R127, R138). The block never halts (R151), so every step answers a next state. -/
def IsRun (c : Config) (ev : Nat → EventWord) (run : Nat → State) : Prop :=
  boot c = .next (run 0) ∧ ∀ n, step (sendEvent (ev n) (run n)) = .next (run (n + 1))

/-- The tick timer's duty, as R152 assumes it: "the tick timer delivers an unbounded number of TICKs in
every infinite run"; it may not stop while the block runs (R120). -/
def TicksKeepComing (ev : Nat → EventWord) : Prop := ∀ n, ∃ m, n ≤ m ∧ ev m = evTick

/-- The number of TICKs among the first `n` events. -/
def tickCount (ev : Nat → EventWord) : Nat → Nat
  | 0 => 0
  | n + 1 => tickCount ev n + if ev n = evTick then 1 else 0

/-- The tick timer's duty in time (R111, R120, R132): time does not run back, and from each TICK to the
next one passes the interval that the period left by the first selects. `time n` is when event `n` is
taken, in half units of T_BIT's unit (log 13). -/
def KeepsPeriod (c : Config) (time : Nat → Nat) (ev : Nat → EventWord) (run : Nat → State) : Prop :=
  (∀ n, time n ≤ time (n + 1)) ∧
  ∀ n m, n < m → ev n = evTick → ev m = evTick → (∀ k, n < k → k < m → ev k ≠ evTick) →
    time m = time n + c.twiceInterval (run (n + 1)).period

/-- The bytes delivered by the first `n` events, in order. -/
def deliveredBytes (ev : Nat → EventWord) : Nat → List Byte
  | 0 => []
  | n + 1 =>
    deliveredBytes ev n ++ if evKind (ev n) = 0b00#2 then [evPayload (ev n)] else []

/-- The byte source's duty (R120, R152): "deliver each byte once, in order, none lost". `sent k` is the
`k`-th byte sent, none where no `k`-th byte is ever sent. What is delivered is what was sent, place for
place, and every byte sent is delivered. -/
def DeliversSentBytes (sent : Nat → Option Byte) (ev : Nat → EventWord) : Prop :=
  (∀ n k b, (deliveredBytes ev n)[k]? = some b → sent k = some b) ∧
  ∀ k b, sent k = some b → ∃ n, (deliveredBytes ev n)[k]? = some b

/-- A run of the block with an environment that keeps to R120 whole: no agent sends a word it may not
send, the ticks keep coming at the selected period, and every byte sent is delivered. The host has no
duty. -/
def FairRun (c : Config) (sent : Nat → Option Byte) (time : Nat → Nat) (ev : Nat → EventWord)
    (run : Nat → State) : Prop :=
  IsRun c ev run ∧ LawfulSends c ev ∧ TicksKeepComing ev ∧ KeepsPeriod c time ev run ∧
    DeliversSentBytes sent ev

end Sys2Proof.Machine
end

