-- ==== Sys2Proof/Safety.lean ====
section
/-! DEFINITION. What claims are stated in: the invariants of spec/10_state.md §4, the states a run
reaches, finished runs (spec/70_reset_and_hazards.md R150, R151), and what a frame shows on the line
(spec/42_frame_engine.md R111, R112). -/

namespace Sys2Proof.Machine

/-- The invariants R35 to R42, with the checked configuration and the canonical form of the two
memories. R36 holds by the type of `slot`. -/
structure BlockInv (s : State) : Prop where
  /-- The configuration passed the check of initialization (R137). -/
  config : s.cfg.ok = true
  /-- R35 -/
  rd_lt : s.rd < s.cfg.C1
  /-- R35 -/
  wr_lt : s.wr < s.cfg.C1
  /-- R35 -/
  coff_le : s.coff ≤ s.cfg.C2 - 1
  /-- R37 -/
  idle_at_slot_zero : s.slot = 0 → s.pending = .noData ∧ s.line = .mark
  /-- R38 -/
  mark_without_data : s.pending = .noData → s.line = .mark
  /-- R39 -/
  coff_zero_in_data : s.mode = .data → s.coff = 0
  /-- R40 -/
  long_iff_slot_one : s.period = .long ↔ s.slot = 1
  /-- R41, a shift-switch code -/
  shift_code_current : ∀ c, s.pending = .shift c → c = shiftCode s.cfg s.shift
  /-- R41, a data code -/
  data_code_current : ∀ c, s.pending = .data c → ∃ b, lookup s.cfg b = some (c, s.shift)
  /-- R42 -/
  window_written : ∀ j, j < unread s → (s.tbuf.read ((s.rd + j) % s.cfg.C1)).isSome
  /-- Canonical form of the text cells, all of them inside the buffer (R44). -/
  tbuf_wf : s.tbuf.wf
  tbuf_inside : ∀ x ∈ s.tbuf, x.1 < s.cfg.C1
  /-- Canonical form of the command cells, all of them inside the buffer (R44). -/
  cbuf_wf : s.cbuf.wf
  cbuf_inside : ∀ x ∈ s.cbuf, x.1 < s.cfg.C2

/-- The states a run passes through: the state after initialization, any state the environment has
sent one more event to, and any state a step leads to (R138, R151). -/
inductive Reachable : State → Prop where
  | boot {c : Config} {s : State} : boot c = .next s → Reachable s
  | send {s : State} (ev : EventWord) : Reachable s → Reachable (sendEvent ev s)
  | step {s t : State} : Reachable s → step s = .next t → Reachable t

/-- A run: the events, in order, from the state after initialization (R151). -/
def runEvents (c : Config) (evs : List EventWord) : Result :=
  match boot c with
  | .next s => Host.Core.run core evs.length { s with input := evs }
  | .fault f => .fault f
  | .refused r => .refused r

/-- "A run whose last step gave Fault or Refused is not a finished run" (R151). -/
def FinishedRun (c : Config) (evs : List EventWord) : Prop := ∃ t, runEvents c evs = .next t

/-- The observations of the seven ticks of a frame: with no code the line stays at MARK; with a code
`c` it is SPACE, the bits of `c` from bit 0 on, MARK. The period is LONG once, then STD (R67, R70,
R112). -/
def frameTrace : Option Code → List Obs
  | none => .line .mark .long :: List.replicate 6 (.line .mark .std)
  | some c => [.line .space .long, .line (bitLevel c 0) .std, .line (bitLevel c 1) .std,
      .line (bitLevel c 2) .std, .line (bitLevel c 3) .std, .line (bitLevel c 4) .std,
      .line .mark .std]

/-- Twice the time the slots of a trace last, in the unit of T_BIT: each slot lasts the interval that
the tick which began it selected (R111). -/
def twiceDuration (c : Config) : List Obs → Nat
  | [] => 0
  | .line _ p :: t => c.twiceInterval p + twiceDuration c t
  | .rdata _ :: t => twiceDuration c t

end Sys2Proof.Machine
end

