-- ==== Sys2Proof/Certificates/Slice0/Obligations.lean ====
section
/-! DEFINITION. The statements for the provers. Each docstring names the rule of spec/ it formalises;
where it rests on the model's own choice, the log entry. -/

open Sys2Proof Sys2Proof.Machine

/-! ## Encoding -/

/-- Decoding the word of a well-formed operation, in any state its condition holds of, gives the
operation back with its operand (R79, R80, R81, R83, R84). -/
def Obligations.DecodeOfEncode : Prop :=
  ∀ (v : View) (i : Instr), i.wellFormed v.cfg = true → i.condition v = true →
    decode v (encode i) = .ok i

/-- Whatever the decoder answers has exactly the word it was read from, a well-formed operand, and a
condition that holds (R78 to R83). -/
def Obligations.EncodeOfDecode : Prop :=
  ∀ (v : View) (ev : EventWord) (i : Instr), decode v ev = .ok i →
    encode i = ev ∧ i.wellFormed v.cfg = true ∧ i.condition v = true

/-- Words written out from the opcode map of R83, one for each operation, decode to it. -/
def Obligations.SampleWordsDecode : Prop :=
  let c := Config.standard .ita2Intl 8 8 1
  let v := View.atReset c
  decode v 0b0001011100 = .ok (.enterCmd 0x5C) ∧
  decode v 0b0001000001 = .ok (.textPut 0x41) ∧
  decode { v with mode := .command } 0b0000001010 = .ok (.cmdEnd 0x0A) ∧
  decode { v with mode := .command, coff := 6 } 0b0001011000 = .ok (.cmdPut 0x58) ∧
  decode { v with mode := .command, coff := 7 } 0b0001011001 = .ok (.cmdDrop 0x59) ∧
  decode v 0b0100000000 = .ok .tickStartEmpty ∧
  decode { v with empty := false, oldest := some 0x41 } 0b0100000000 = .ok .tickStartData ∧
  decode { v with empty := false, oldest := some 0x31 } 0b0100000000 = .ok .tickStartShift ∧
  decode { v with empty := false, oldest := some 0x7E } 0b0100000000 = .ok .tickStartNoCode ∧
  decode { v with slot := 3 } 0b0100000000 = .ok .tickBit ∧
  decode { v with slot := 6 } 0b0100000000 = .ok .tickStop ∧
  decode v 0b1000000000 = .ok .hostAck ∧
  decode v 0b1100000111 = .ok (.hostRead 0x07)

/-- R79: which operation a BYTE word names, and that every byte names one. -/
def Obligations.ByteWordsNameTheirOperation : Prop :=
  ∀ (v : View) (b : Byte),
    (v.mode = .data → b = v.cfg.escByte → decode v (evWord 0b00#2 b) = .ok (.enterCmd b)) ∧
    (v.mode = .data → b ≠ v.cfg.escByte → decode v (evWord 0b00#2 b) = .ok (.textPut b)) ∧
    (v.mode = .command → b = v.cfg.termByte → decode v (evWord 0b00#2 b) = .ok (.cmdEnd b)) ∧
    (v.mode = .command → b ≠ v.cfg.termByte → v.coff < v.cfg.C2 - 1 →
      decode v (evWord 0b00#2 b) = .ok (.cmdPut b)) ∧
    (v.mode = .command → b ≠ v.cfg.termByte → v.coff ≥ v.cfg.C2 - 1 →
      decode v (evWord 0b00#2 b) = .ok (.cmdDrop b)) ∧
    (∃ i, decode v (evWord 0b00#2 b) = .ok i ∧
      ∀ j, agentOf j = .byteSource → encode j = evWord 0b00#2 b →
        j.wellFormed v.cfg = true → j.condition v = true → j = i)

/-- R80: which operation the TICK word names. -/
def Obligations.TickWordNamesItsOperation : Prop :=
  ∀ v : View,
    (v.slot = 0 → v.empty = true → decode v 0x100#10 = .ok .tickStartEmpty) ∧
    (∀ b c q, v.slot = 0 → v.empty = false → v.oldest = some b → lookup v.cfg b = some (c, q) →
      q = v.shift → decode v 0x100#10 = .ok .tickStartData) ∧
    (∀ b c q, v.slot = 0 → v.empty = false → v.oldest = some b → lookup v.cfg b = some (c, q) →
      q ≠ v.shift → decode v 0x100#10 = .ok .tickStartShift) ∧
    (∀ b, v.slot = 0 → v.empty = false → v.oldest = some b → lookup v.cfg b = none →
      decode v 0x100#10 = .ok .tickStartNoCode) ∧
    (1 ≤ v.slot.val → v.slot.val ≤ 5 → decode v 0x100#10 = .ok .tickBit) ∧
    (v.slot.val = 6 → decode v 0x100#10 = .ok .tickStop)

/-- R82 (the spec's own decision D17), and R128's precedence: these words are refused by name in every state with a checked
configuration, whatever a read in that state would do. -/
def Obligations.ReservedWordsAreRefused : Prop :=
  ∀ (s : State) (p : Byte) (rest : List EventWord), s.cfg.ok = true →
    (p ≠ 0x00#8 → s.input = evWord 0b01#2 p :: rest → step s = .refused .reservedTickPayload) ∧
    (p ≠ 0x00#8 → s.input = evWord 0b10#2 p :: rest → step s = .refused .reservedAckPayload) ∧
    (s.cfg.C2 ≤ p.toNat → s.input = evWord 0b11#2 p :: rest →
      step s = .refused .readIndexOutOfRange)

/-! ## Parameters and reset -/

/-- R137: initialization checks the configuration and puts every field at its reset value. The values are
the spec's own decision D14 (log 8). -/
def Obligations.InitializationSetsResetValues : Prop :=
  ∀ c : Config,
    (c.ok = true → ∃ s, boot c = .next s ∧ s.cfg = c ∧ s.shift = c.shiftReset ∧ s.mode = .data ∧
      s.rd = 0 ∧ s.wr = 0 ∧ s.coff = 0 ∧ s.ready = false ∧ s.pending = .noData ∧ s.slot = 0 ∧
      s.line = .mark ∧ s.period = .std ∧
      (∀ a, s.tbuf.read a = none) ∧ (∀ a, s.cbuf.read a = none)) ∧
    (c.ok = false → boot c = .refused .badConfiguration)

/-- R72, with the capacities of R6 and R7: for a table that lists each character once, the check passes
exactly the configurations that meet the constraints, and initialization refuses the others. R72(a) and
R72(d) hold by the types of a code and of a shift. The constraints are the spec's own decision D5. -/
def Obligations.ConfigurationCheckTestsTheConstraints : Prop :=
  ∀ c : Config, (c.codeTable.map TableEntry.char).Nodup →
    (c.ok = true ↔
      2 ≤ c.C1 ∧ 2 ≤ c.C2 ∧ c.C2 ≤ 256 ∧
      (∀ b code q, lookup c b = some (code, q) → code ≠ c.ltrsCode ∧ code ≠ c.figsCode) ∧
      (∀ b b' x, lookup c b = some x → lookup c b' = some x → b = b') ∧
      lookup c 0x41#8 = some (0x03#5, .letters)) ∧
    (c.ok = false → boot c = .refused .badConfiguration)

/-- A table that lists a character twice is refused: the list is then no function (R11; that the table is
a list of entries is the model's choice, log 10). -/
def Obligations.TablesListingACharacterTwiceAreRefused : Prop :=
  ∀ c : Config, ¬(c.codeTable.map TableEntry.char).Nodup → boot c = .refused .badConfiguration

/-- A step of a machine whose configuration fails the check is refused (R18; that every step checks is
the model's choice, log 9). -/
def Obligations.BadConfigurationIsRefused : Prop :=
  ∀ s : State, s.cfg.ok = false → step s = .refused .badConfiguration

/-- The default configurations pass the check, for both variants and all admitted capacities (R6, R7,
R72 to R77). -/
def Obligations.DefaultConfigurationsPassTheCheck : Prop :=
  ∀ (v : FigsVariant) (c1 c2 tBit : Nat), 2 ≤ c1 → 2 ≤ c2 → c2 ≤ 256 →
    (Config.standard v c1 c2 tBit).ok = true

/-- R77: every byte that R73 to R76 do not list is unmapped by the default table, and no character has
the blank code. The listed bytes are written out here from those rules: the capitals, the format
characters and common figures, and the figures of the variant. The table is the spec's general knowledge
(D5, log 17). -/
def Obligations.DefaultTableLeavesTheRestUnmapped : Prop :=
  ∀ (v : FigsVariant) (c1 c2 tBit : Nat) (b : Byte),
    (¬(0x41#8 ≤ b ∧ b ≤ 0x5A#8) →
      b ∉ [0x20#8, 0x0D#8, 0x0A#8, 0x2D#8, 0x3F#8, 0x3A#8, 0x28#8, 0x29#8, 0x2E#8, 0x2C#8, 0x2F#8] →
      ¬(0x30#8 ≤ b ∧ b ≤ 0x39#8) →
      (v = .ita2Intl → b ∉ [0x05#8, 0x07#8, 0x27#8, 0x3D#8, 0x2B#8]) →
      (v = .usTty → b ∉ [0x24#8, 0x21#8, 0x26#8, 0x23#8, 0x27#8, 0x07#8, 0x3B#8, 0x22#8]) →
      lookup (Config.standard v c1 c2 tBit) b = none) ∧
    ∀ q, lookup (Config.standard v c1 c2 tBit) b ≠ some (0x00#5, q)

/-- The inverse table returns the original character, and its answers are mapped characters (R101;
derived there from R72 to R77). -/
def Obligations.InverseTableReturnsTheCharacter : Prop :=
  ∀ c : Config, c.ok = true → ∀ (b : Byte) (code : Code) (q : Shift),
    lookup c b = some (code, q) ↔ charOf c code q = some b

/-- R94: the shift-switch codes; with the default configuration, the values of R12, which the spec takes
from general knowledge (D6, log 17). -/
def Obligations.ShiftCodesNameTheirState : Prop :=
  (∀ c : Config, shiftCode c .letters = c.ltrsCode ∧ shiftCode c .figures = c.figsCode) ∧
  ∀ v c1 c2 tBit, shiftCode (Config.standard v c1 c2 tBit) .letters = 0x1F#5 ∧
    shiftCode (Config.standard v c1 c2 tBit) .figures = 0x1B#5

/-! ## Cells -/

/-- R49: the three cases of MemRead, for both memories. That an unwritten cell faults is the spec's own
decision D16 (log 6). -/
def Obligations.CellReadFollowsItsThreeCases : Prop :=
  ∀ (s : State) (sp : Space) (i : Nat),
    (i ≥ size s sp → memRead sp i s = .error .indexOutOfRange) ∧
    (i < size s sp → (cells s sp).read i = none → memRead sp i s = .error .readUnwritten) ∧
    (∀ b, i < size s sp → (cells s sp).read i = some b → memRead sp i s = .ok b)

/-- R50: MemWrite stores the byte in its cell, whatever the cell held, and changes no other cell of either
memory and nothing else. -/
def Obligations.CellWriteStoresOneByte : Prop :=
  ∀ (s : State) (sp : Space) (i : Nat) (b : Byte), i < size s sp →
    ∃ t, memWrite sp i b s = .ok t ∧ (cells t sp).read i = some b ∧
      (∀ sp' a, ¬(sp' = sp ∧ a = i) → (cells t sp').read a = (cells s sp').read a) ∧
      { t with tbuf := s.tbuf, cbuf := s.cbuf } = s

/-- A write outside its buffer faults; the spec gives no cell there (R44, R47), and the fault is the
model's choice (log 7). -/
def Obligations.CellWriteOutsideTheBufferFaults : Prop :=
  ∀ (s : State) (sp : Space) (i : Nat) (b : Byte), i ≥ size s sp →
    memWrite sp i b s = .error .indexOutOfRange

/-! ## The operations of a BYTE event -/

/-- R88. -/
def Obligations.EnterCmdStartsACommand : Prop :=
  ∀ (s : State) (b : Byte), s.mode = .data → b = s.cfg.escByte →
    exec (.enterCmd b) s = .next { s with mode := .command, coff := 0 }

/-- R89; `wr < C1` is R35. -/
def Obligations.TextPutStoresAndAdvances : Prop :=
  ∀ (s : State) (b : Byte), s.mode = .data → b ≠ s.cfg.escByte → s.wr < s.cfg.C1 →
    ∃ t, exec (.textPut b) s = .next t ∧
      t = { s with tbuf := t.tbuf, wr := (s.wr + 1) % s.cfg.C1 } ∧
      t.tbuf.read s.wr = some b ∧ ∀ a, a ≠ s.wr → t.tbuf.read a = s.tbuf.read a

/-- R90; `coff < C2` is R35. -/
def Obligations.CmdEndTerminatesAndRaisesReady : Prop :=
  ∀ (s : State) (b : Byte), s.mode = .command → b = s.cfg.termByte → s.coff < s.cfg.C2 →
    ∃ t, exec (.cmdEnd b) s = .next t ∧
      t = { s with cbuf := t.cbuf, mode := .data, ready := true, coff := 0 } ∧
      t.cbuf.read s.coff = some 0x00#8 ∧ ∀ a, a ≠ s.coff → t.cbuf.read a = s.cbuf.read a

/-- R91. -/
def Obligations.CmdPutStoresAndCounts : Prop :=
  ∀ (s : State) (b : Byte), s.mode = .command → b ≠ s.cfg.termByte → s.coff < s.cfg.C2 - 1 →
    ∃ t, exec (.cmdPut b) s = .next t ∧
      t = { s with cbuf := t.cbuf, coff := s.coff + 1 } ∧
      t.cbuf.read s.coff = some b ∧ ∀ a, a ≠ s.coff → t.cbuf.read a = s.cbuf.read a

/-- R92. -/
def Obligations.CmdDropChangesNothing : Prop :=
  ∀ (s : State) (b : Byte), s.mode = .command → b ≠ s.cfg.termByte → s.coff ≥ s.cfg.C2 - 1 →
    exec (.cmdDrop b) s = .next s

/-! ## The operations of a TICK event -/

/-- R102; that the period is LONG in an idle frame too is the spec's own decision D12. In the statements of this section `trace`, the model's own field (log 4), is left to
`TraceRecordsTicksAndReads`. -/
def Obligations.StartEmptyBeginsAnIdleFrame : Prop :=
  ∀ s : State, s.slot = 0 → s.rd = s.wr →
    ∃ t, exec .tickStartEmpty s = .next t ∧
      t = { s with pending := .noData, period := .long, slot := 1, trace := t.trace }

/-- R103 with R96; `rd < C1` is R35. -/
def Obligations.StartDataSendsTheCharacter : Prop :=
  ∀ (s : State) (b : Byte) (c : Code) (q : Shift), s.slot = 0 → s.rd ≠ s.wr → s.rd < s.cfg.C1 →
    s.tbuf.read s.rd = some b → lookup s.cfg b = some (c, q) → q = s.shift →
    ∃ t, exec .tickStartData s = .next t ∧
      t = { s with rd := (s.rd + 1) % s.cfg.C1, pending := .data c, line := .space, period := .long,
                   slot := 1, trace := t.trace }

/-- R104 with R97; `rd < C1` is R35. -/
def Obligations.StartShiftSendsTheShiftCode : Prop :=
  ∀ (s : State) (b : Byte) (c : Code) (q : Shift), s.slot = 0 → s.rd ≠ s.wr → s.rd < s.cfg.C1 →
    s.tbuf.read s.rd = some b → lookup s.cfg b = some (c, q) → q ≠ s.shift →
    ∃ t, exec .tickStartShift s = .next t ∧
      t = { s with shift := q, pending := .shift (shiftCode s.cfg q), line := .space, period := .long,
                   slot := 1, trace := t.trace }

/-- R105 with R95; `rd < C1` is R35. That the line is not driven is the choice of conflict C5 (log
15). -/
def Obligations.StartNoCodeConsumesSilently : Prop :=
  ∀ (s : State) (b : Byte), s.slot = 0 → s.rd ≠ s.wr → s.rd < s.cfg.C1 →
    s.tbuf.read s.rd = some b → lookup s.cfg b = none →
    ∃ t, exec .tickStartNoCode s = .next t ∧
      t = { s with rd := (s.rd + 1) % s.cfg.C1, pending := .noData, period := .long, slot := 1,
                   trace := t.trace }

/-- R106 with R68; that the period is written STD at every data slot, idle frames included, is the spec's
own decision D12. -/
def Obligations.TickBitDrivesItsBit : Prop :=
  ∀ s : State, 1 ≤ s.slot.val → s.slot.val ≤ 5 →
    ∃ t, exec .tickBit s = .next t ∧
      t = { s with line := t.line, period := .std, slot := t.slot, trace := t.trace } ∧
      t.slot.val = s.slot.val + 1 ∧
      (s.pending = .noData → t.line = s.line) ∧
      ∀ c, s.pending = .data c ∨ s.pending = .shift c →
        t.line = if c.getLsbD (s.slot.val - 1) then .mark else .space

/-- R107. -/
def Obligations.TickStopEndsTheFrame : Prop :=
  ∀ s : State, s.slot = 6 →
    ∃ t, exec .tickStop s = .next t ∧
      t = { s with line := .mark, pending := .noData, slot := 0, trace := t.trace }

/-! ## The operations of the host -/

/-- R114, whose event is the spec's own decision D15. -/
def Obligations.HostAckClearsReady : Prop :=
  ∀ s : State, exec .hostAck s = .next { s with ready := false }

/-- R115: an index outside the buffer is refused, an unwritten cell faults, and a written cell's byte is
put on `rdata` with no other change; `rdata` reads the trace (log 4), so that the byte is also the last
observation (R150). -/
def Obligations.HostReadFollowsItsThreeCases : Prop :=
  ∀ (s : State) (i : Byte),
    (i.toNat ≥ s.cfg.C2 → exec (.hostRead i) s = .refused .readIndexOutOfRange) ∧
    (i.toNat < s.cfg.C2 → s.cbuf.read i.toNat = none →
      exec (.hostRead i) s = .fault .readUnwritten) ∧
    (∀ b, i.toNat < s.cfg.C2 → s.cbuf.read i.toNat = some b →
      ∃ t, exec (.hostRead i) s = .next t ∧ t = { s with trace := s.trace ++ [.rdata b] } ∧
        (ports t).rdata = some b)

/-! ## Where an operation applies -/

/-- A BYTE or TICK operation applied outside its condition faults (R18; that this is a fault of its own
name is the model's choice, log 5), where the character the condition reads can be read. -/
def Obligations.OperationsOutsideTheirConditionFault : Prop :=
  ∀ (s : State) (i : Instr), agentOf i ≠ .host →
    (s.slot = 0 → s.rd ≠ s.wr → ((view s).oldest).isSome = true) →
    i.wellFormed s.cfg = false ∨ i.condition (view s) = false →
    exec i s = .fault .ruleNotApplicable

/-- In every state with the invariant, a BYTE or TICK operation answers a next state exactly under its
condition (R79, R80, R87, R110). -/
def Obligations.OperationsCompleteExactlyUnderTheirCondition : Prop :=
  ∀ (s : State) (i : Instr), BlockInv s → agentOf i ≠ .host →
    ((∃ t, exec i s = .next t) ↔ i.wellFormed s.cfg = true ∧ i.condition (view s) = true)

/-! ## Frames and writers -/

/-- No TICK operation writes `wr`, `mode`, `coff`, `ready`, TBUF or CBUF (spec/42_frame_engine.md,
R131). -/
def Obligations.TickOperationsFrame : Prop :=
  ∀ (s t : State) (i : Instr), agentOf i = .tickTimer → exec i s = .next t →
    t.wr = s.wr ∧ t.mode = s.mode ∧ t.coff = s.coff ∧ t.ready = s.ready ∧ t.cfg = s.cfg ∧
    t.input = s.input ∧ ∀ sp a, (cells t sp).read a = (cells s sp).read a

/-- No BYTE operation writes `shift`, `rd`, `pending`, `slot`, `line` or `period`, and the only cells
written are TBUF's at `wr` by TEXT_PUT and CBUF's at `coff` by CMD_PUT and CMD_END
(spec/40_demux.md, R45, R131). -/
def Obligations.ByteOperationsFrame : Prop :=
  ∀ (s t : State) (i : Instr), agentOf i = .byteSource → exec i s = .next t →
    t.shift = s.shift ∧ t.rd = s.rd ∧ t.pending = s.pending ∧ t.slot = s.slot ∧ t.line = s.line ∧
    t.period = s.period ∧ t.cfg = s.cfg ∧ t.input = s.input ∧ t.trace = s.trace ∧
    (∀ a, ¬((∃ b, i = .textPut b) ∧ a = s.wr) → t.tbuf.read a = s.tbuf.read a) ∧
    (∀ a, ¬((∃ b, i = .cmdPut b ∨ i = .cmdEnd b) ∧ a = s.coff) → t.cbuf.read a = s.cbuf.read a)

/-- The host's operations write no state of the block but `ready`, which HOST_READ does not write
either (R48, R113, R114, R115). -/
def Obligations.HostOperationsFrame : Prop :=
  ∀ (s t : State) (i : Instr), agentOf i = .host → exec i s = .next t →
    t.toBlock = { s.toBlock with ready := t.ready } ∧ t.cfg = s.cfg ∧ t.input = s.input ∧
    (∀ k, i = .hostRead k → t.toBlock = s.toBlock) ∧
    ∀ sp a, (cells t sp).read a = (cells s sp).read a

/-- R21: no step writes the parameters. -/
def Obligations.ParametersAreNeverWritten : Prop :=
  ∀ s t : State, step s = .next t → t.cfg = s.cfg

/-- Each field changes only by the operations that the rules name as its writers (R22 to R31). -/
def Obligations.FieldsChangeOnlyByTheirWriters : Prop :=
  ∀ (s t : State) (i : Instr), exec i s = .next t →
    (t.shift ≠ s.shift → i = .tickStartShift) ∧
    (t.mode ≠ s.mode → ∃ b, i = .enterCmd b ∨ i = .cmdEnd b) ∧
    (t.rd ≠ s.rd → i = .tickStartData ∨ i = .tickStartNoCode) ∧
    (t.wr ≠ s.wr → ∃ b, i = .textPut b) ∧
    (t.coff ≠ s.coff → ∃ b, i = .enterCmd b ∨ i = .cmdEnd b ∨ i = .cmdPut b) ∧
    (s.ready = false → t.ready = true → ∃ b, i = .cmdEnd b) ∧
    (s.ready = true → t.ready = false → i = .hostAck) ∧
    (t.pending ≠ s.pending → agentOf i = .tickTimer ∧ (s.slot = 0 ∨ s.slot = 6)) ∧
    (t.slot ≠ s.slot ∨ t.line ≠ s.line ∨ t.period ≠ s.period → agentOf i = .tickTimer)

/-- The slot sequence: `slot' = (slot = 6) ? 0 : slot + 1` across every TICK (R108). -/
def Obligations.SlotsFollowTheirCycle : Prop :=
  ∀ (s t : State) (i : Instr), agentOf i = .tickTimer → exec i s = .next t →
    t.slot.val = if s.slot.val = 6 then 0 else s.slot.val + 1

/-- What each operation adds to the observation trace (R150). -/
def Obligations.TraceRecordsTicksAndReads : Prop :=
  ∀ (s t : State) (i : Instr), exec i s = .next t →
    (agentOf i = .tickTimer → t.trace = s.trace ++ [.line t.line t.period]) ∧
    (∀ k, i = .hostRead k →
      ∃ b, s.cbuf.read k.toNat = some b ∧ t.trace = s.trace ++ [.rdata b]) ∧
    (agentOf i = .byteSource ∨ i = .hostAck → t.trace = s.trace)

/-! ## The step -/

/-- A step takes the next event word, and where that word decodes, it is the operation's execution on
the state with the word taken (R18, R19; the event stream is the model's, log 2). -/
def Obligations.StepRunsTheDecodedOperation : Prop :=
  ∀ (s : State) (ev : EventWord) (rest : List EventWord) (i : Instr), s.cfg.ok = true →
    s.input = ev :: rest → decode (view s) ev = .ok i →
    step s = exec i { s with input := rest }

/-- Without an event nothing changes (R136; that a step may find no event is the model's choice, log
2). -/
def Obligations.NothingButAnEventChangesTheState : Prop :=
  ∀ s : State, s.cfg.ok = true → s.input = [] → step s = .next s

/-- A slot-0 tick of a nonempty buffer whose cell at `rd` cannot be read faults as that read does
(R49, R108). -/
def Obligations.TickOnUnreadableTextFaults : Prop :=
  ∀ (s : State) (rest : List EventWord), s.cfg.ok = true → s.input = evTick :: rest →
    s.slot = 0 → s.rd ≠ s.wr →
    (s.rd ≥ s.cfg.C1 → step s = .fault .indexOutOfRange) ∧
    (s.rd < s.cfg.C1 → s.tbuf.read s.rd = none → step s = .fault .readUnwritten)

/-! ## The text path -/

/-- The exact effect of a push, overflow included: the unread count, the buffer that reads as empty
after `C1` pushes, and below that the new byte behind the unread text (R53, derived there from R51
and R52). -/
def Obligations.PushCountsModuloTheCapacity : Prop :=
  ∀ (s t : State) (b : Byte), s.rd < s.cfg.C1 → exec (.textPut b) s = .next t →
    unread t = (unread s + 1) % s.cfg.C1 ∧
    (unread s = s.cfg.C1 - 1 → textEmpty t = true) ∧
    (unread s < s.cfg.C1 - 1 → textEmpty t = false ∧ unreadText t = unreadText s ++ [some b])

/-- FIFO, the writing half: pushes with no tick in between, as many as fit, stand behind the unread
text in push order (R56, derived there from R52, R53 and R55). -/
def Obligations.PushedTextKeepsItsOrder : Prop :=
  ∀ (bs : List Byte) (s : State) (rest : List EventWord), BlockInv s → s.mode = .data →
    (∀ b ∈ bs, b ≠ s.cfg.escByte) → unread s + bs.length ≤ s.cfg.C1 - 1 →
    s.input = evBytes bs ++ rest →
    ∃ t, Host.Core.run Sys2Proof.core bs.length s = .next t ∧ t.input = rest ∧
      unreadText t = unreadText s ++ bs.map some

/-- FIFO, the reading half: a data or unmapped frame takes the oldest unread character, a shift frame
and an idle frame take none (R55, R56, R95, R96, R97). -/
def Obligations.FramesTakeTheOldestCharacter : Prop :=
  ∀ (s t : State) (i : Instr), BlockInv s → exec i s = .next t →
    (i = .tickStartData ∨ i = .tickStartNoCode →
      ∃ b, s.tbuf.read s.rd = some b ∧ unreadText s = some b :: unreadText t) ∧
    (i = .tickStartShift ∨ i = .tickStartEmpty → unreadText t = unreadText s)

/-- The shift invariant: a data code is sent only for a character whose required shift is the current
Shift State (R100, derived there from R96 and R97). -/
def Obligations.DataCodesMatchTheShiftState : Prop :=
  ∀ (s t : State) (i : Instr) (c : Code), agentOf i = .tickTimer → s.slot = 0 →
    exec i s = .next t → t.pending = .data c →
    ∃ b, s.tbuf.read s.rd = some b ∧ lookup s.cfg b = some (c, s.shift) ∧ t.shift = s.shift

/-! ## Frames on the line -/

/-- The output of a whole frame: seven ticks from slot 0 show the frame of the Pending Code that the
first tick adopts, or an idle frame, and leave the line idle; a frame of an empty buffer does not move
the read cursor (R109, R112, derived there from R102 to R108). -/
def Obligations.SevenTicksShowOneFrame : Prop :=
  ∀ (s : State) (rest : List EventWord), BlockInv s → s.slot = 0 → s.input = evFrame ++ rest →
    ∃ u t, step s = .next u ∧ Host.Core.run Sys2Proof.core 7 s = .next t ∧
      t.trace = s.trace ++ frameTrace (pendingCode u.pending) ∧ t.input = rest ∧
      t.slot = 0 ∧ t.line = .mark ∧ t.pending = .noData ∧
      (s.rd = s.wr → u.pending = .noData ∧ t.rd = s.rd)

/-- A frame lasts 7.5 T_BIT, whatever it sends (R111; doubled to stay a whole number). -/
def Obligations.EveryFrameLastsSevenAndAHalfBits : Prop :=
  ∀ (c : Config) (code : Option Code), twiceDuration c (frameTrace code) = 15 * c.tBit

/-- A character of the other shift costs one shift-switch frame, then its own frame, with nothing
pushed in between (R99, derived there from R96, R97 and R53). -/
def Obligations.OneShiftFrameThenTheData : Prop :=
  ∀ (s : State) (rest : List EventWord) (b : Byte) (c : Code) (q : Shift), BlockInv s → s.slot = 0 →
    s.rd ≠ s.wr → s.tbuf.read s.rd = some b → lookup s.cfg b = some (c, q) → q ≠ s.shift →
    s.input = evTicks 8 ++ rest →
    ∃ t, Host.Core.run Sys2Proof.core 8 s = .next t ∧ t.shift = q ∧ t.pending = .data c ∧
      t.rd = (s.rd + 1) % s.cfg.C1 ∧ t.slot = 1 ∧ t.input = rest ∧
      t.trace = s.trace ++ frameTrace (some (shiftCode s.cfg q)) ++ [.line .space .long]

/-! ## Isolation -/

/-- A TICK neither reads nor writes the demultiplexer's and the host's state: with other values there,
the same tick does the same (R23, R148). -/
def Obligations.TicksIgnoreTheCommandSide : Prop :=
  ∀ (s t : State) (rest : List EventWord) (m : Mode) (k : Nat) (r : Bool) (cb : Memory),
    s.input = evTick :: rest → step s = .next t →
    step { s with mode := m, coff := k, ready := r, cbuf := cb } =
      .next { t with mode := m, coff := k, ready := r, cbuf := cb }

/-- A BYTE neither reads nor writes the transmitter's state; there is no full check (R54, R131). -/
def Obligations.BytesIgnoreTheTransmitter : Prop :=
  ∀ (s t : State) (b : Byte) (rest : List EventWord) (q : Shift) (r : Nat) (p : Pending) (k : Slot)
    (l : Level) (w : Period), s.input = evByte b :: rest → step s = .next t →
    step { s with shift := q, rd := r, pending := p, slot := k, line := l, period := w } =
      .next { t with shift := q, rd := r, pending := p, slot := k, line := l, period := w }

/-! ## The command path -/

/-- A whole command: escape, bytes, terminator raise `ready` and leave the first `C2 - 1` bytes as the
NUL-terminated string the host reads, cut at an earlier NUL (R116, derived there from R88, R90, R91
and R92). -/
def Obligations.CommandStringIsTheTruncatedCommand : Prop :=
  ∀ (bs : List Byte) (s : State) (rest : List EventWord), BlockInv s → s.mode = .data →
    (∀ b ∈ bs, b ≠ s.cfg.termByte) →
    s.input = evByte s.cfg.escByte :: evBytes bs ++ evByte s.cfg.termByte :: rest →
    ∃ t, Host.Core.run Sys2Proof.core (bs.length + 2) s = .next t ∧ t.ready = true ∧
      t.mode = .data ∧ t.coff = 0 ∧ t.input = rest ∧
      commandString t = some ((bs.take (s.cfg.C2 - 1)).takeWhile (· ≠ 0x00#8))

/-! ## Safety and invariants -/

/-- R110: a TICK always answers a next state. -/
def Obligations.TickEventsAlwaysComplete : Prop :=
  ∀ (s : State) (rest : List EventWord), BlockInv s → s.input = evTick :: rest →
    ∃ t, step s = .next t ∧ t.input = rest

/-- A BYTE always answers a next state (R87). -/
def Obligations.ByteEventsAlwaysComplete : Prop :=
  ∀ (s : State) (b : Byte) (rest : List EventWord), BlockInv s → s.input = evByte b :: rest →
    ∃ t, step s = .next t ∧ t.input = rest

/-- The only fault of a state with the invariant is a HOST_READ of an unwritten cell (R42, R49, R87,
R110, R115). -/
def Obligations.OnlyUnwrittenReadsFault : Prop :=
  ∀ (s : State) (f : Fault), BlockInv s → step s = .fault f →
    f = .readUnwritten ∧ ∃ i rest, s.input = evRead i :: rest ∧ i.toNat < s.cfg.C2 ∧
      s.cbuf.read i.toNat = none

/-- Initialization establishes the invariants R35 to R42. -/
def Obligations.InitializationEstablishesTheInvariants : Prop :=
  ∀ (c : Config) (s : State), boot c = .next s → BlockInv s

/-- Every step keeps the invariants R35 to R42, from every state that has them. -/
def Obligations.StepKeepsTheInvariants : Prop :=
  ∀ s t : State, BlockInv s → step s = .next t → BlockInv t

/-- Every state a run passes through has the invariants R35 to R42. -/
def Obligations.ReachableStatesHaveTheInvariants : Prop :=
  ∀ s : State, Reachable s → BlockInv s

/-- The seven-bit encoding of the Pending Code tells its values apart, has no kind `11`, and has NoData
as all zeros (R28). -/
def Obligations.PendingEncodingIsFaithful : Prop :=
  (∀ p q : Pending, pendingBits p = pendingBits q → p = q) ∧
  (∀ p : Pending, (pendingBits p).extractLsb' 5 2 ≠ 0b11#2) ∧
  (∀ p : Pending, (pendingBits p).extractLsb' 5 2 = 0b00#2 ↔ p = .noData) ∧
  (∀ (p : Pending) (c : Code), pendingCode p = some c → (pendingBits p).extractLsb' 0 5 = c) ∧
  pendingBits .noData = 0#7

/-! ## The environment's duties -/

/-- What the duties of R120 bring in an infinite run. While the ticks keep coming, an unread character is
taken within 14 ticks (R99, R109), unless pushes leave the buffer reading as empty before (R53). Every
byte the source sends is taken once, in its place, by the operation that R79 names for it. A timer that
keeps the period starts a frame every 7.5 T_BIT (R111; in half units, log 13). The duties are premises
(R151, R152); their form is the model's choice, log 23. -/
def Obligations.DutiesKeepTheBlockMoving : Prop :=
  ∀ (c : Config) (ev : Nat → EventWord) (run : Nat → State), IsRun c ev run →
    (TicksKeepComing ev → ∀ n, (run n).rd ≠ (run n).wr →
      ∃ m, n < m ∧ tickCount ev m ≤ tickCount ev n + 14 ∧
        ((run m).rd = ((run n).rd + 1) % c.C1 ∨ (run m).rd = (run m).wr)) ∧
    (∀ sent, DeliversSentBytes sent ev → ∀ k b, sent k = some b →
      ∃ n, (deliveredBytes ev n).length = k ∧ ev n = evByte b ∧
        exec (onByte (view (run n)) b) (run n) = .next (run (n + 1))) ∧
    (∀ time, KeepsPeriod c time ev run → ∀ n m, n < m → ev n = evTick → ev m = evTick →
      (run n).slot = 0 → (run m).slot = 0 →
      (∀ k, n < k → k < m → ev k = evTick → (run k).slot ≠ 0) →
      time m = time n + 15 * c.tBit)
end

