-- ==== Sys2Proof/Laws/Decode.lean ====
section
/-! SUPPORT. The fields of an event word, and the decoder by its cases. -/

namespace Sys2Proof

@[simp] theorem evKind_evWord (k : BitVec 2) (p : Byte) : evKind (evWord k p) = k := by
  unfold evKind evWord
  ext i hi
  rw [BitVec.getElem_extractLsb']
  exact (BitVec.getLsbD_append (x := k) (y := p)).trans (by simp [BitVec.getLsbD_eq_getElem hi])

@[simp] theorem evPayload_evWord (k : BitVec 2) (p : Byte) : evPayload (evWord k p) = p := by
  unfold evPayload evWord
  ext i hi
  rw [BitVec.getElem_extractLsb']
  exact (BitVec.getLsbD_append (x := k) (y := p)).trans (by simp [hi])

/-- No bit of a word is outside its two fields. -/
theorem evWord_fields (ev : EventWord) : evWord (evKind ev) (evPayload ev) = ev := by
  unfold evWord evKind evPayload
  ext i hi
  simp only [BitVec.getElem_append]
  split
  · simp [BitVec.getLsbD_eq_getElem (show i < 10 from hi)]
  · rename_i h
    simp [show 8 + (i - 8) = i by omega, BitVec.getLsbD_eq_getElem (show i < 10 from hi)]

theorem evTick_eq : evTick = evWord 0b01#2 0x00#8 := by decide

theorem evAck_eq : evAck = evWord 0b10#2 0x00#8 := by decide

/-- A BYTE word is never refused (R79, R87). -/
@[simp] theorem decode_evByte (v : View) (b : Byte) : decode v (evByte b) = .ok (onByte v b) := by
  simp [decode, decodeWord, evByte, select]

/-- The TICK word (R80). -/
@[simp] theorem decode_evTick (v : View) : decode v evTick = onTick v := by
  rw [evTick_eq]
  simp [decode, decodeWord, select]

/-- The HOST_ACK word (R81). -/
@[simp] theorem decode_evAck (v : View) : decode v evAck = .ok .hostAck := by
  rw [evAck_eq]
  simp [decode, decodeWord, select]

/-- A HOST_READ word inside the Command Buffer (R81). -/
theorem decode_evRead (v : View) {i : Byte} (h : i.toNat < v.cfg.C2) :
    decode v (evRead i) = .ok (.hostRead i) := by
  simp [decode, decodeWord, evRead, select, h]

/-- The decoder answers in one of four ways: a byte, the tick, the acknowledge, a read inside the
Command Buffer (R78, R81, R82). -/
theorem decode_ok {v : View} {ev : EventWord} {i : Instr} (h : decode v ev = .ok i) :
    (∃ b, ev = evByte b ∧ i = onByte v b) ∨ (ev = evTick ∧ onTick v = .ok i) ∨
      (ev = evAck ∧ i = .hostAck) ∨ (∃ k, ev = evRead k ∧ k.toNat < v.cfg.C2 ∧ i = .hostRead k) := by
  obtain ⟨k, p, rfl⟩ : ∃ k p, ev = evWord k p := ⟨_, _, (evWord_fields ev).symm⟩
  unfold decode decodeWord at h
  simp only [evKind_evWord, evPayload_evWord] at h
  by_cases h0 : k = 0b00#2
  · subst h0
    simp only [if_true, select, Except.ok.injEq] at h
    exact .inl ⟨p, rfl, h.symm⟩
  · by_cases h1 : k = 0b01#2
    · subst h1
      by_cases hp : p = 0x00#8
      · subst hp
        exact .inr (.inl ⟨evTick_eq.symm, by simpa [select] using h⟩)
      · simp [hp] at h
    · by_cases h2 : k = 0b10#2
      · subst h2
        by_cases hp : p = 0x00#8
        · subst hp
          exact .inr (.inr (.inl ⟨evAck_eq.symm, by simpa [select, eq_comm] using h⟩))
        · simp [hp] at h
      · have h3 : k = 0b11#2 := by
          have : ∀ k : BitVec 2, k ≠ 0b00#2 → k ≠ 0b01#2 → k ≠ 0b10#2 → k = 0b11#2 := by decide
          exact this k h0 h1 h2
        subst h3
        by_cases hp : p.toNat < v.cfg.C2
        · exact .inr (.inr (.inr ⟨p, rfl, hp, by simpa [select, hp, eq_comm] using h⟩))
        · simp [hp] at h

/-! What each condition says, as a proposition (R79, R80). -/

@[simp] theorem condition_enterCmd {v : View} {b : Byte} :
    (Instr.enterCmd b).condition v = true ↔ v.mode = .data := by simp [Instr.condition]
@[simp] theorem condition_textPut {v : View} {b : Byte} :
    (Instr.textPut b).condition v = true ↔ v.mode = .data := by simp [Instr.condition]
@[simp] theorem condition_cmdEnd {v : View} {b : Byte} :
    (Instr.cmdEnd b).condition v = true ↔ v.mode = .command := by simp [Instr.condition]
@[simp] theorem condition_cmdPut {v : View} {b : Byte} :
    (Instr.cmdPut b).condition v = true ↔ v.mode = .command ∧ v.coff < v.cfg.C2 - 1 := by
  simp [Instr.condition]
@[simp] theorem condition_cmdDrop {v : View} {b : Byte} :
    (Instr.cmdDrop b).condition v = true ↔ v.mode = .command ∧ v.coff ≥ v.cfg.C2 - 1 := by
  simp [Instr.condition]
@[simp] theorem condition_tickStartEmpty {v : View} :
    Instr.tickStartEmpty.condition v = true ↔ v.slot = 0 ∧ v.empty = true := by
  simp [Instr.condition]
@[simp] theorem condition_tickStartData {v : View} : Instr.tickStartData.condition v = true ↔
    (v.slot = 0 ∧ v.empty = false) ∧ v.codec = some .data := by simp [Instr.condition]
@[simp] theorem condition_tickStartShift {v : View} : Instr.tickStartShift.condition v = true ↔
    (v.slot = 0 ∧ v.empty = false) ∧ v.codec = some .shift := by simp [Instr.condition]
@[simp] theorem condition_tickStartNoCode {v : View} : Instr.tickStartNoCode.condition v = true ↔
    (v.slot = 0 ∧ v.empty = false) ∧ v.codec = some .noCode := by simp [Instr.condition]
@[simp] theorem condition_tickBit {v : View} :
    Instr.tickBit.condition v = true ↔ 1 ≤ v.slot.val ∧ v.slot.val ≤ 5 := by
  simp [Instr.condition]
@[simp] theorem condition_tickStop {v : View} :
    Instr.tickStop.condition v = true ↔ v.slot = 6 := by simp [Instr.condition]

/-! What each operand check says, as a proposition (R79, R81). -/

@[simp] theorem wellFormed_enterCmd {c : Config} {b : Byte} :
    (Instr.enterCmd b).wellFormed c = true ↔ b = c.escByte := by simp [Instr.wellFormed]
@[simp] theorem wellFormed_textPut {c : Config} {b : Byte} :
    (Instr.textPut b).wellFormed c = true ↔ b ≠ c.escByte := by simp [Instr.wellFormed]
@[simp] theorem wellFormed_cmdEnd {c : Config} {b : Byte} :
    (Instr.cmdEnd b).wellFormed c = true ↔ b = c.termByte := by simp [Instr.wellFormed]
@[simp] theorem wellFormed_cmdPut {c : Config} {b : Byte} :
    (Instr.cmdPut b).wellFormed c = true ↔ b ≠ c.termByte := by simp [Instr.wellFormed]
@[simp] theorem wellFormed_cmdDrop {c : Config} {b : Byte} :
    (Instr.cmdDrop b).wellFormed c = true ↔ b ≠ c.termByte := by simp [Instr.wellFormed]
@[simp] theorem wellFormed_hostRead {c : Config} {i : Byte} :
    (Instr.hostRead i).wellFormed c = true ↔ i.toNat < c.C2 := by simp [Instr.wellFormed]

end Sys2Proof
end

