-- ==== Sys2Proof/Laws/Memory.lean ====
section
/-! SUPPORT. The laws of the cells: a read after a write, the canonical form, and the bounds. -/

namespace Sys2Proof.Machine

@[simp] theorem Memory.read_nil (i : Nat) : Memory.read [] i = none := rfl

/-- A read after a write gives the byte written at its index and the old byte everywhere else. -/
theorem Memory.read_write (m : Memory) (i : Nat) (v : Byte) (j : Nat) :
    (Memory.write m i v).read j = if j = i then some v else m.read j := by
  induction m with
  | nil => rfl
  | cons x m ih =>
    obtain ⟨a, b⟩ := x
    by_cases h1 : i < a
    · simp [Memory.write, h1, Memory.read]
    · by_cases h2 : i = a
      · subst h2
        by_cases h3 : j = i <;> simp [Memory.write, Memory.read, h3]
      · by_cases h3 : j = a
        · have : j ≠ i := fun h => h2 (h ▸ h3)
          simp [Memory.write, h1, h2, Memory.read, h3, Ne.symm h2]
        · simp [Memory.write, h1, h2, Memory.read, h3, ih]

@[simp] theorem Memory.read_write_same (m : Memory) (i : Nat) (v : Byte) :
    (Memory.write m i v).read i = some v := by simp [Memory.read_write]

theorem Memory.read_write_other (m : Memory) (v : Byte) {i j : Nat} (h : j ≠ i) :
    (Memory.write m i v).read j = m.read j := by simp [Memory.read_write, h]

/-- A write lists the written cell and, of the rest, only cells that were listed. -/
theorem Memory.mem_write {m : Memory} {i : Nat} {v : Byte} {x : Host.Cell}
    (h : x ∈ Memory.write m i v) : x = (i, v) ∨ x ∈ m := by
  induction m with
  | nil => simpa [Memory.write] using h
  | cons y m ih =>
    obtain ⟨a, b⟩ := y
    unfold Memory.write at h
    split at h
    · simpa using h
    · split at h
      · rcases List.mem_cons.mp h with h | h
        · exact .inl h
        · exact .inr (List.mem_cons_of_mem _ h)
      · rcases List.mem_cons.mp h with h | h
        · exact .inr (h ▸ List.mem_cons_self)
        · exact (ih h).imp_right (List.mem_cons_of_mem _)

/-- A write keeps the canonical form. -/
theorem Memory.wf_write {m : Memory} (h : m.wf) (i : Nat) (v : Byte) : (Memory.write m i v).wf := by
  induction m with
  | nil => simp [Memory.write, Memory.wf]
  | cons x m ih =>
    obtain ⟨a, b⟩ := x
    obtain ⟨hx, hm⟩ := List.pairwise_cons.mp h
    unfold Memory.write
    split
    · rename_i hlt
      refine List.pairwise_cons.mpr ⟨fun y hy => ?_, h⟩
      rcases List.mem_cons.mp hy with rfl | hy
      · exact hlt
      · exact Nat.lt_trans hlt (hx y hy)
    · split
      · rename_i heq
        exact List.pairwise_cons.mpr ⟨fun y hy => by simpa [heq] using hx y hy, hm⟩
      · refine List.pairwise_cons.mpr ⟨fun y hy => ?_, ih hm⟩
        rcases Memory.mem_write hy with rfl | hy
        · simp only; omega
        · exact hx y hy

/-- A write inside the buffer keeps every listed cell inside it. -/
theorem Memory.inside_write {m : Memory} {n : Nat} (h : ∀ x ∈ m, x.1 < n) {i : Nat} (hi : i < n)
    (v : Byte) : ∀ x ∈ Memory.write m i v, x.1 < n := by
  intro x hx
  rcases Memory.mem_write hx with rfl | hx
  · exact hi
  · exact h x hx

/-- Every memory operation of the machine keeps the canonical form. -/
theorem memWrite_keeps_wf {sp : Space} {i : Nat} {v : Byte} {s t : State}
    (h : memWrite sp i v s = .ok t) (ht : s.tbuf.wf) (hc : s.cbuf.wf) : t.tbuf.wf ∧ t.cbuf.wf := by
  unfold memWrite at h
  split at h
  · cases h
  · cases h
    cases sp
    · exact ⟨Memory.wf_write ht _ _, hc⟩
    · exact ⟨ht, Memory.wf_write hc _ _⟩

end Sys2Proof.Machine
end

