-- ==== Sys2Proof/Laws/State.lean ====
section
/-! SUPPORT. What each named update of the state does to each field: one lemma a field, true by rfl. -/

namespace Sys2Proof.Machine

/-! `emit x s` -/

@[simp] theorem emit_shift (x : Obs) (s : State) : (emit x s).shift = s.shift := rfl
@[simp] theorem emit_mode (x : Obs) (s : State) : (emit x s).mode = s.mode := rfl
@[simp] theorem emit_rd (x : Obs) (s : State) : (emit x s).rd = s.rd := rfl
@[simp] theorem emit_wr (x : Obs) (s : State) : (emit x s).wr = s.wr := rfl
@[simp] theorem emit_coff (x : Obs) (s : State) : (emit x s).coff = s.coff := rfl
@[simp] theorem emit_ready (x : Obs) (s : State) : (emit x s).ready = s.ready := rfl
@[simp] theorem emit_pending (x : Obs) (s : State) : (emit x s).pending = s.pending := rfl
@[simp] theorem emit_slot (x : Obs) (s : State) : (emit x s).slot = s.slot := rfl
@[simp] theorem emit_line (x : Obs) (s : State) : (emit x s).line = s.line := rfl
@[simp] theorem emit_period (x : Obs) (s : State) : (emit x s).period = s.period := rfl
@[simp] theorem emit_tbuf (x : Obs) (s : State) : (emit x s).tbuf = s.tbuf := rfl
@[simp] theorem emit_cbuf (x : Obs) (s : State) : (emit x s).cbuf = s.cbuf := rfl
@[simp] theorem emit_cfg (x : Obs) (s : State) : (emit x s).cfg = s.cfg := rfl
@[simp] theorem emit_input (x : Obs) (s : State) : (emit x s).input = s.input := rfl
@[simp] theorem emit_trace (x : Obs) (s : State) : (emit x s).trace = s.trace ++ [x] := rfl

/-! `emitLine s` -/

@[simp] theorem emitLine_shift (s : State) : (emitLine s).shift = s.shift := rfl
@[simp] theorem emitLine_mode (s : State) : (emitLine s).mode = s.mode := rfl
@[simp] theorem emitLine_rd (s : State) : (emitLine s).rd = s.rd := rfl
@[simp] theorem emitLine_wr (s : State) : (emitLine s).wr = s.wr := rfl
@[simp] theorem emitLine_coff (s : State) : (emitLine s).coff = s.coff := rfl
@[simp] theorem emitLine_ready (s : State) : (emitLine s).ready = s.ready := rfl
@[simp] theorem emitLine_pending (s : State) : (emitLine s).pending = s.pending := rfl
@[simp] theorem emitLine_slot (s : State) : (emitLine s).slot = s.slot := rfl
@[simp] theorem emitLine_line (s : State) : (emitLine s).line = s.line := rfl
@[simp] theorem emitLine_period (s : State) : (emitLine s).period = s.period := rfl
@[simp] theorem emitLine_tbuf (s : State) : (emitLine s).tbuf = s.tbuf := rfl
@[simp] theorem emitLine_cbuf (s : State) : (emitLine s).cbuf = s.cbuf := rfl
@[simp] theorem emitLine_cfg (s : State) : (emitLine s).cfg = s.cfg := rfl
@[simp] theorem emitLine_input (s : State) : (emitLine s).input = s.input := rfl
@[simp] theorem emitLine_trace (s : State) : (emitLine s).trace = s.trace ++ [.line s.line s.period] := rfl

/-! `textAdvance s` -/

@[simp] theorem textAdvance_shift (s : State) : (textAdvance s).shift = s.shift := rfl
@[simp] theorem textAdvance_mode (s : State) : (textAdvance s).mode = s.mode := rfl
@[simp] theorem textAdvance_rd (s : State) : (textAdvance s).rd = (s.rd + 1) % s.cfg.C1 := rfl
@[simp] theorem textAdvance_wr (s : State) : (textAdvance s).wr = s.wr := rfl
@[simp] theorem textAdvance_coff (s : State) : (textAdvance s).coff = s.coff := rfl
@[simp] theorem textAdvance_ready (s : State) : (textAdvance s).ready = s.ready := rfl
@[simp] theorem textAdvance_pending (s : State) : (textAdvance s).pending = s.pending := rfl
@[simp] theorem textAdvance_slot (s : State) : (textAdvance s).slot = s.slot := rfl
@[simp] theorem textAdvance_line (s : State) : (textAdvance s).line = s.line := rfl
@[simp] theorem textAdvance_period (s : State) : (textAdvance s).period = s.period := rfl
@[simp] theorem textAdvance_tbuf (s : State) : (textAdvance s).tbuf = s.tbuf := rfl
@[simp] theorem textAdvance_cbuf (s : State) : (textAdvance s).cbuf = s.cbuf := rfl
@[simp] theorem textAdvance_cfg (s : State) : (textAdvance s).cfg = s.cfg := rfl
@[simp] theorem textAdvance_input (s : State) : (textAdvance s).input = s.input := rfl
@[simp] theorem textAdvance_trace (s : State) : (textAdvance s).trace = s.trace := rfl

/-! `enterMode m s` -/

@[simp] theorem enterMode_shift (m : Mode) (s : State) : (enterMode m s).shift = s.shift := rfl
@[simp] theorem enterMode_mode (m : Mode) (s : State) : (enterMode m s).mode = m := rfl
@[simp] theorem enterMode_rd (m : Mode) (s : State) : (enterMode m s).rd = s.rd := rfl
@[simp] theorem enterMode_wr (m : Mode) (s : State) : (enterMode m s).wr = s.wr := rfl
@[simp] theorem enterMode_coff (m : Mode) (s : State) : (enterMode m s).coff = 0 := rfl
@[simp] theorem enterMode_ready (m : Mode) (s : State) : (enterMode m s).ready = s.ready := rfl
@[simp] theorem enterMode_pending (m : Mode) (s : State) : (enterMode m s).pending = s.pending := rfl
@[simp] theorem enterMode_slot (m : Mode) (s : State) : (enterMode m s).slot = s.slot := rfl
@[simp] theorem enterMode_line (m : Mode) (s : State) : (enterMode m s).line = s.line := rfl
@[simp] theorem enterMode_period (m : Mode) (s : State) : (enterMode m s).period = s.period := rfl
@[simp] theorem enterMode_tbuf (m : Mode) (s : State) : (enterMode m s).tbuf = s.tbuf := rfl
@[simp] theorem enterMode_cbuf (m : Mode) (s : State) : (enterMode m s).cbuf = s.cbuf := rfl
@[simp] theorem enterMode_cfg (m : Mode) (s : State) : (enterMode m s).cfg = s.cfg := rfl
@[simp] theorem enterMode_input (m : Mode) (s : State) : (enterMode m s).input = s.input := rfl
@[simp] theorem enterMode_trace (m : Mode) (s : State) : (enterMode m s).trace = s.trace := rfl

/-! `raiseReady s` -/

@[simp] theorem raiseReady_shift (s : State) : (raiseReady s).shift = s.shift := rfl
@[simp] theorem raiseReady_mode (s : State) : (raiseReady s).mode = s.mode := rfl
@[simp] theorem raiseReady_rd (s : State) : (raiseReady s).rd = s.rd := rfl
@[simp] theorem raiseReady_wr (s : State) : (raiseReady s).wr = s.wr := rfl
@[simp] theorem raiseReady_coff (s : State) : (raiseReady s).coff = s.coff := rfl
@[simp] theorem raiseReady_ready (s : State) : (raiseReady s).ready = true := rfl
@[simp] theorem raiseReady_pending (s : State) : (raiseReady s).pending = s.pending := rfl
@[simp] theorem raiseReady_slot (s : State) : (raiseReady s).slot = s.slot := rfl
@[simp] theorem raiseReady_line (s : State) : (raiseReady s).line = s.line := rfl
@[simp] theorem raiseReady_period (s : State) : (raiseReady s).period = s.period := rfl
@[simp] theorem raiseReady_tbuf (s : State) : (raiseReady s).tbuf = s.tbuf := rfl
@[simp] theorem raiseReady_cbuf (s : State) : (raiseReady s).cbuf = s.cbuf := rfl
@[simp] theorem raiseReady_cfg (s : State) : (raiseReady s).cfg = s.cfg := rfl
@[simp] theorem raiseReady_input (s : State) : (raiseReady s).input = s.input := rfl
@[simp] theorem raiseReady_trace (s : State) : (raiseReady s).trace = s.trace := rfl

/-! `clearReady s` -/

@[simp] theorem clearReady_shift (s : State) : (clearReady s).shift = s.shift := rfl
@[simp] theorem clearReady_mode (s : State) : (clearReady s).mode = s.mode := rfl
@[simp] theorem clearReady_rd (s : State) : (clearReady s).rd = s.rd := rfl
@[simp] theorem clearReady_wr (s : State) : (clearReady s).wr = s.wr := rfl
@[simp] theorem clearReady_coff (s : State) : (clearReady s).coff = s.coff := rfl
@[simp] theorem clearReady_ready (s : State) : (clearReady s).ready = false := rfl
@[simp] theorem clearReady_pending (s : State) : (clearReady s).pending = s.pending := rfl
@[simp] theorem clearReady_slot (s : State) : (clearReady s).slot = s.slot := rfl
@[simp] theorem clearReady_line (s : State) : (clearReady s).line = s.line := rfl
@[simp] theorem clearReady_period (s : State) : (clearReady s).period = s.period := rfl
@[simp] theorem clearReady_tbuf (s : State) : (clearReady s).tbuf = s.tbuf := rfl
@[simp] theorem clearReady_cbuf (s : State) : (clearReady s).cbuf = s.cbuf := rfl
@[simp] theorem clearReady_cfg (s : State) : (clearReady s).cfg = s.cfg := rfl
@[simp] theorem clearReady_input (s : State) : (clearReady s).input = s.input := rfl
@[simp] theorem clearReady_trace (s : State) : (clearReady s).trace = s.trace := rfl

/-! `setCells s m .tbuf` -/

@[simp] theorem setTbuf_shift (s : State) (m : Memory) : (setCells s m .tbuf).shift = s.shift := rfl
@[simp] theorem setTbuf_mode (s : State) (m : Memory) : (setCells s m .tbuf).mode = s.mode := rfl
@[simp] theorem setTbuf_rd (s : State) (m : Memory) : (setCells s m .tbuf).rd = s.rd := rfl
@[simp] theorem setTbuf_wr (s : State) (m : Memory) : (setCells s m .tbuf).wr = s.wr := rfl
@[simp] theorem setTbuf_coff (s : State) (m : Memory) : (setCells s m .tbuf).coff = s.coff := rfl
@[simp] theorem setTbuf_ready (s : State) (m : Memory) : (setCells s m .tbuf).ready = s.ready := rfl
@[simp] theorem setTbuf_pending (s : State) (m : Memory) : (setCells s m .tbuf).pending = s.pending := rfl
@[simp] theorem setTbuf_slot (s : State) (m : Memory) : (setCells s m .tbuf).slot = s.slot := rfl
@[simp] theorem setTbuf_line (s : State) (m : Memory) : (setCells s m .tbuf).line = s.line := rfl
@[simp] theorem setTbuf_period (s : State) (m : Memory) : (setCells s m .tbuf).period = s.period := rfl
@[simp] theorem setTbuf_tbuf (s : State) (m : Memory) : (setCells s m .tbuf).tbuf = m := rfl
@[simp] theorem setTbuf_cbuf (s : State) (m : Memory) : (setCells s m .tbuf).cbuf = s.cbuf := rfl
@[simp] theorem setTbuf_cfg (s : State) (m : Memory) : (setCells s m .tbuf).cfg = s.cfg := rfl
@[simp] theorem setTbuf_input (s : State) (m : Memory) : (setCells s m .tbuf).input = s.input := rfl
@[simp] theorem setTbuf_trace (s : State) (m : Memory) : (setCells s m .tbuf).trace = s.trace := rfl

/-! `setCells s m .cbuf` -/

@[simp] theorem setCbuf_shift (s : State) (m : Memory) : (setCells s m .cbuf).shift = s.shift := rfl
@[simp] theorem setCbuf_mode (s : State) (m : Memory) : (setCells s m .cbuf).mode = s.mode := rfl
@[simp] theorem setCbuf_rd (s : State) (m : Memory) : (setCells s m .cbuf).rd = s.rd := rfl
@[simp] theorem setCbuf_wr (s : State) (m : Memory) : (setCells s m .cbuf).wr = s.wr := rfl
@[simp] theorem setCbuf_coff (s : State) (m : Memory) : (setCells s m .cbuf).coff = s.coff := rfl
@[simp] theorem setCbuf_ready (s : State) (m : Memory) : (setCells s m .cbuf).ready = s.ready := rfl
@[simp] theorem setCbuf_pending (s : State) (m : Memory) : (setCells s m .cbuf).pending = s.pending := rfl
@[simp] theorem setCbuf_slot (s : State) (m : Memory) : (setCells s m .cbuf).slot = s.slot := rfl
@[simp] theorem setCbuf_line (s : State) (m : Memory) : (setCells s m .cbuf).line = s.line := rfl
@[simp] theorem setCbuf_period (s : State) (m : Memory) : (setCells s m .cbuf).period = s.period := rfl
@[simp] theorem setCbuf_tbuf (s : State) (m : Memory) : (setCells s m .cbuf).tbuf = s.tbuf := rfl
@[simp] theorem setCbuf_cbuf (s : State) (m : Memory) : (setCells s m .cbuf).cbuf = m := rfl
@[simp] theorem setCbuf_cfg (s : State) (m : Memory) : (setCells s m .cbuf).cfg = s.cfg := rfl
@[simp] theorem setCbuf_input (s : State) (m : Memory) : (setCells s m .cbuf).input = s.input := rfl
@[simp] theorem setCbuf_trace (s : State) (m : Memory) : (setCells s m .cbuf).trace = s.trace := rfl

/-! `startFrame p s` -/

@[simp] theorem startFrame_shift (p : Pending) (s : State) : (startFrame p s).shift = s.shift := rfl
@[simp] theorem startFrame_mode (p : Pending) (s : State) : (startFrame p s).mode = s.mode := rfl
@[simp] theorem startFrame_rd (p : Pending) (s : State) : (startFrame p s).rd = s.rd := rfl
@[simp] theorem startFrame_wr (p : Pending) (s : State) : (startFrame p s).wr = s.wr := rfl
@[simp] theorem startFrame_coff (p : Pending) (s : State) : (startFrame p s).coff = s.coff := rfl
@[simp] theorem startFrame_ready (p : Pending) (s : State) : (startFrame p s).ready = s.ready := rfl
@[simp] theorem startFrame_pending (p : Pending) (s : State) : (startFrame p s).pending = p := rfl
@[simp] theorem startFrame_slot (p : Pending) (s : State) : (startFrame p s).slot = 1 := rfl
@[simp] theorem startFrame_line (p : Pending) (s : State) : (startFrame p s).line = startLevel p s := rfl
@[simp] theorem startFrame_period (p : Pending) (s : State) : (startFrame p s).period = .long := rfl
@[simp] theorem startFrame_tbuf (p : Pending) (s : State) : (startFrame p s).tbuf = s.tbuf := rfl
@[simp] theorem startFrame_cbuf (p : Pending) (s : State) : (startFrame p s).cbuf = s.cbuf := rfl
@[simp] theorem startFrame_cfg (p : Pending) (s : State) : (startFrame p s).cfg = s.cfg := rfl
@[simp] theorem startFrame_input (p : Pending) (s : State) : (startFrame p s).input = s.input := rfl
@[simp] theorem startFrame_trace (p : Pending) (s : State) : (startFrame p s).trace = s.trace ++ [.line (startLevel p s) .long] := rfl

/-! `dataSlot s` -/

@[simp] theorem dataSlot_shift (s : State) : (dataSlot s).shift = s.shift := rfl
@[simp] theorem dataSlot_mode (s : State) : (dataSlot s).mode = s.mode := rfl
@[simp] theorem dataSlot_rd (s : State) : (dataSlot s).rd = s.rd := rfl
@[simp] theorem dataSlot_wr (s : State) : (dataSlot s).wr = s.wr := rfl
@[simp] theorem dataSlot_coff (s : State) : (dataSlot s).coff = s.coff := rfl
@[simp] theorem dataSlot_ready (s : State) : (dataSlot s).ready = s.ready := rfl
@[simp] theorem dataSlot_pending (s : State) : (dataSlot s).pending = s.pending := rfl
@[simp] theorem dataSlot_slot (s : State) : (dataSlot s).slot = s.slot + 1 := rfl
@[simp] theorem dataSlot_line (s : State) : (dataSlot s).line = slotLevel s.slot.val s := rfl
@[simp] theorem dataSlot_period (s : State) : (dataSlot s).period = .std := rfl
@[simp] theorem dataSlot_tbuf (s : State) : (dataSlot s).tbuf = s.tbuf := rfl
@[simp] theorem dataSlot_cbuf (s : State) : (dataSlot s).cbuf = s.cbuf := rfl
@[simp] theorem dataSlot_cfg (s : State) : (dataSlot s).cfg = s.cfg := rfl
@[simp] theorem dataSlot_input (s : State) : (dataSlot s).input = s.input := rfl
@[simp] theorem dataSlot_trace (s : State) : (dataSlot s).trace = s.trace ++ [.line (slotLevel s.slot.val s) .std] := rfl

/-! `stopSlot s` -/

@[simp] theorem stopSlot_shift (s : State) : (stopSlot s).shift = s.shift := rfl
@[simp] theorem stopSlot_mode (s : State) : (stopSlot s).mode = s.mode := rfl
@[simp] theorem stopSlot_rd (s : State) : (stopSlot s).rd = s.rd := rfl
@[simp] theorem stopSlot_wr (s : State) : (stopSlot s).wr = s.wr := rfl
@[simp] theorem stopSlot_coff (s : State) : (stopSlot s).coff = s.coff := rfl
@[simp] theorem stopSlot_ready (s : State) : (stopSlot s).ready = s.ready := rfl
@[simp] theorem stopSlot_pending (s : State) : (stopSlot s).pending = .noData := rfl
@[simp] theorem stopSlot_slot (s : State) : (stopSlot s).slot = 0 := rfl
@[simp] theorem stopSlot_line (s : State) : (stopSlot s).line = .mark := rfl
@[simp] theorem stopSlot_period (s : State) : (stopSlot s).period = s.period := rfl
@[simp] theorem stopSlot_tbuf (s : State) : (stopSlot s).tbuf = s.tbuf := rfl
@[simp] theorem stopSlot_cbuf (s : State) : (stopSlot s).cbuf = s.cbuf := rfl
@[simp] theorem stopSlot_cfg (s : State) : (stopSlot s).cfg = s.cfg := rfl
@[simp] theorem stopSlot_input (s : State) : (stopSlot s).input = s.input := rfl
@[simp] theorem stopSlot_trace (s : State) : (stopSlot s).trace = s.trace ++ [.line .mark s.period] := rfl

end Sys2Proof.Machine
end

