-- ==== Sys2Proof/Laws/Ops.lean ====
section
/-! SUPPORT. For each shared operation, what it does when it answers: the lemmas a proof cites instead
of unfolding the operation. -/

namespace Sys2Proof.Machine

/-- MemRead answers exactly where the cell is inside the memory and written. -/
theorem memRead_ok {sp : Space} {i : Nat} {s : State} {b : Byte} :
    memRead sp i s = .ok b ↔ i < size s sp ∧ (cells s sp).read i = some b := by
  unfold memRead
  split
  · rename_i h
    simp [Nat.not_lt.mpr h]
  · rename_i h
    cases hr : Memory.read (cells s sp) i <;> simp [Nat.lt_of_not_le h]

/-- MemWrite answers exactly where the cell is inside the memory, with that cell stored. -/
theorem memWrite_ok {sp : Space} {i : Nat} {v : Byte} {s t : State} :
    memWrite sp i v s = .ok t ↔ i < size s sp ∧ t = setCells s ((cells s sp).write i v) sp := by
  unfold memWrite
  split
  · rename_i h
    simp [Nat.not_lt.mpr h]
  · rename_i h
    simp [Nat.lt_of_not_le h, eq_comm]

theorem require_next {p : Prop} [Decidable p] {k : Result} {t : State} :
    require p k = .next t ↔ p ∧ k = .next t := by
  by_cases h : p <;> simp [require, h]

@[simp] theorem require_pos {p : Prop} [Decidable p] (h : p) (k : Result) : require p k = k :=
  if_pos h

@[simp] theorem require_neg {p : Prop} [Decidable p] (h : ¬p) (k : Result) :
    require p k = .fault .ruleNotApplicable := if_neg h

theorem finish_next {e : Except Fault State} {t : State} : finish e = .next t ↔ e = .ok t := by
  cases e <;> simp [finish]

/-- TextPush answers exactly where the write cursor is inside the buffer (R52). -/
theorem textPush_ok {b : Byte} {s t : State} :
    textPush b s = .ok t ↔
      s.wr < s.cfg.C1 ∧ t = { s with tbuf := s.tbuf.write s.wr b, wr := (s.wr + 1) % s.cfg.C1 } := by
  unfold textPush
  cases h : memWrite .tbuf s.wr b s with
  | error f =>
    simp only [reduceCtorEq, false_iff, not_and]
    intro hlt
    have := (memWrite_ok (sp := .tbuf) (v := b)).mpr ⟨hlt, rfl⟩
    rw [h] at this
    cases this
  | ok u =>
    obtain ⟨hlt, rfl⟩ := memWrite_ok.mp h
    have hlt' : s.wr < s.cfg.C1 := hlt
    simp only [Except.ok.injEq, hlt', true_and]
    exact eq_comm

/-- TextPeek answers exactly where the read cursor is inside the buffer and the cell written (R55). -/
theorem textPeek_ok {s : State} {b : Byte} :
    textPeek s = .ok b ↔ s.rd < s.cfg.C1 ∧ s.tbuf.read s.rd = some b :=
  memRead_ok (sp := .tbuf)

/-- CMD_END answers exactly where the offset is inside the Command Buffer (R90). -/
theorem endCommand_ok {s t : State} :
    endCommand s = .ok t ↔ s.coff < s.cfg.C2 ∧
      t = { s with cbuf := s.cbuf.write s.coff 0x00#8, mode := .data, coff := 0, ready := true } := by
  unfold endCommand
  cases h : memWrite .cbuf s.coff 0x00#8 s with
  | error f =>
    simp only [reduceCtorEq, false_iff, not_and]
    intro hlt
    have := (memWrite_ok (sp := .cbuf) (v := 0x00#8)).mpr ⟨hlt, rfl⟩
    rw [h] at this
    cases this
  | ok u =>
    obtain ⟨hlt, rfl⟩ := memWrite_ok.mp h
    have hlt' : s.coff < s.cfg.C2 := hlt
    simp only [Except.ok.injEq, hlt', true_and]
    exact eq_comm

/-- CMD_PUT answers exactly where the offset is inside the Command Buffer (R91). -/
theorem appendCommand_ok {b : Byte} {s t : State} :
    appendCommand b s = .ok t ↔ s.coff < s.cfg.C2 ∧
      t = { s with cbuf := s.cbuf.write s.coff b, coff := s.coff + 1 } := by
  unfold appendCommand
  cases h : memWrite .cbuf s.coff b s with
  | error f =>
    simp only [reduceCtorEq, false_iff, not_and]
    intro hlt
    have := (memWrite_ok (sp := .cbuf) (v := b)).mpr ⟨hlt, rfl⟩
    rw [h] at this
    cases this
  | ok u =>
    obtain ⟨hlt, rfl⟩ := memWrite_ok.mp h
    have hlt' : s.coff < s.cfg.C2 := hlt
    simp only [Except.ok.injEq, hlt', true_and]
    exact eq_comm

/-- What the codec does with the oldest character: its three outcomes (R95, R96, R97, R98). -/
inductive CodecEffect (s : State) (b : Byte) : Pending → State → Prop where
  | noCode : lookup s.cfg b = none → CodecEffect s b .noData (textAdvance s)
  | data {c : Code} : lookup s.cfg b = some (c, s.shift) → CodecEffect s b (.data c) (textAdvance s)
  | shift {c : Code} {q : Shift} : lookup s.cfg b = some (c, q) → q ≠ s.shift →
      CodecEffect s b (.shift (shiftCode s.cfg q)) { s with shift := q }

/-- The codec answers exactly with one of its three outcomes for the character at `rd`. -/
theorem codecResolve_ok {s t : State} {p : Pending} :
    codecResolve s = .ok (p, t) ↔
      ∃ b, s.rd < s.cfg.C1 ∧ s.tbuf.read s.rd = some b ∧ CodecEffect s b p t := by
  constructor
  · intro h
    unfold codecResolve at h
    cases hp : textPeek s with
    | error f => simp [hp] at h
    | ok b =>
      obtain ⟨h1, h2⟩ := textPeek_ok.mp hp
      refine ⟨b, h1, h2, ?_⟩
      simp only [hp] at h
      cases hl : lookup s.cfg b with
      | none =>
        simp only [hl, Except.ok.injEq, Prod.mk.injEq] at h
        obtain ⟨rfl, rfl⟩ := h
        exact .noCode hl
      | some x =>
        obtain ⟨c, q⟩ := x
        simp only [hl] at h
        split at h
        · rename_i hq
          simp only [Except.ok.injEq, Prod.mk.injEq] at h
          obtain ⟨rfl, rfl⟩ := h
          exact .data (hq ▸ hl)
        · rename_i hq
          simp only [Except.ok.injEq, Prod.mk.injEq] at h
          obtain ⟨rfl, rfl⟩ := h
          exact .shift hl hq
  · rintro ⟨b, h1, h2, h⟩
    have hp := textPeek_ok.mpr ⟨h1, h2⟩
    cases h with
    | noCode hl => simp [codecResolve, hp, hl]
    | data hl => simp [codecResolve, hp, hl]
    | shift hl hq => simp [codecResolve, hp, hl, hq]

/-- A slot-0 tick of a nonempty buffer answers exactly where the codec does, with an outcome the
operation takes. -/
theorem startFromCodec_next {takes : Pending → Bool} {s t : State} :
    startFromCodec takes s = .next t ↔ s.slot = 0 ∧ s.rd ≠ s.wr ∧
      ∃ p u, codecResolve s = .ok (p, u) ∧ takes p = true ∧ t = startFrame p u := by
  unfold startFromCodec
  rw [require_next]
  cases hc : codecResolve s with
  | error f => simp
  | ok x =>
    obtain ⟨p, u⟩ := x
    simp only [require_next, Host.Outcome.next.injEq, Except.ok.injEq, Prod.mk.injEq]
    constructor
    · rintro ⟨⟨h1, h2⟩, h3, rfl⟩
      exact ⟨h1, h2, p, u, ⟨rfl, rfl⟩, h3, rfl⟩
    · rintro ⟨h1, h2, _, _, ⟨rfl, rfl⟩, h3, rfl⟩
      exact ⟨⟨h1, h2⟩, h3, rfl⟩

/-- The decoder sees a character exactly where TextPeek answers it. -/
theorem view_oldest {s : State} {b : Byte} :
    (view s).oldest = some b ↔ s.rd < s.cfg.C1 ∧ s.tbuf.read s.rd = some b := by
  rw [← textPeek_ok]
  cases h : textPeek s <;> simp [view, h]

@[simp] theorem view_cfg (s : State) : (view s).cfg = s.cfg := rfl
@[simp] theorem view_mode (s : State) : (view s).mode = s.mode := rfl
@[simp] theorem view_coff (s : State) : (view s).coff = s.coff := rfl
@[simp] theorem view_slot (s : State) : (view s).slot = s.slot := rfl
@[simp] theorem view_shift (s : State) : (view s).shift = s.shift := rfl
@[simp] theorem view_empty (s : State) : (view s).empty = textEmpty s := rfl

/-- Taking an event word off the stream does not change what the decoder sees. -/
@[simp] theorem view_input (s : State) (l : List EventWord) : view { s with input := l } = view s := rfl

end Sys2Proof.Machine
end

