-- ==== Sys2Proof/Laws/Exec.lean ====
section
/-! SUPPORT. What one operation can do and what one step can do: the inversions that later proofs
cite. -/

namespace Sys2Proof.Machine

/-- The next state of each operation, with the condition under which it is reached. -/
inductive Effect (s : State) : Instr → State → Prop where
  | enterCmd : s.mode = .data → Effect s (.enterCmd s.cfg.escByte) { s with mode := .command, coff := 0 }
  | textPut {b : Byte} : s.mode = .data → b ≠ s.cfg.escByte → s.wr < s.cfg.C1 →
      Effect s (.textPut b)
        { s with tbuf := s.tbuf.write s.wr b, wr := (s.wr + 1) % s.cfg.C1 }
  | cmdEnd : s.mode = .command → s.coff < s.cfg.C2 →
      Effect s (.cmdEnd s.cfg.termByte)
        { s with cbuf := s.cbuf.write s.coff 0x00#8, mode := .data, coff := 0, ready := true }
  | cmdPut {b : Byte} : s.mode = .command → b ≠ s.cfg.termByte → s.coff < s.cfg.C2 - 1 →
      Effect s (.cmdPut b) { s with cbuf := s.cbuf.write s.coff b, coff := s.coff + 1 }
  | cmdDrop {b : Byte} : s.mode = .command → b ≠ s.cfg.termByte → s.coff ≥ s.cfg.C2 - 1 →
      Effect s (.cmdDrop b) s
  | startEmpty : s.slot = 0 → s.rd = s.wr → Effect s .tickStartEmpty (startFrame .noData s)
  | startData {b : Byte} {c : Code} : s.slot = 0 → s.rd ≠ s.wr → s.rd < s.cfg.C1 →
      s.tbuf.read s.rd = some b → lookup s.cfg b = some (c, s.shift) →
      Effect s .tickStartData (startFrame (.data c) (textAdvance s))
  | startShift {b : Byte} {c : Code} {q : Shift} : s.slot = 0 → s.rd ≠ s.wr → s.rd < s.cfg.C1 →
      s.tbuf.read s.rd = some b → lookup s.cfg b = some (c, q) → q ≠ s.shift →
      Effect s .tickStartShift (startFrame (.shift (shiftCode s.cfg q)) { s with shift := q })
  | startNoCode {b : Byte} : s.slot = 0 → s.rd ≠ s.wr → s.rd < s.cfg.C1 →
      s.tbuf.read s.rd = some b → lookup s.cfg b = none →
      Effect s .tickStartNoCode (startFrame .noData (textAdvance s))
  | bit : 1 ≤ s.slot.val → s.slot.val ≤ 5 → Effect s .tickBit (dataSlot s)
  | stop : s.slot = 6 → Effect s .tickStop (stopSlot s)
  | ack : Effect s .hostAck (clearReady s)
  | read {i b : Byte} : i.toNat < s.cfg.C2 → s.cbuf.read i.toNat = some b →
      Effect s (.hostRead i) (emit (.rdata b) s)

/-- An operation answers a next state exactly as `Effect` says. -/
theorem exec_next {i : Instr} {s t : State} : exec i s = .next t ↔ Effect s i t := by
  constructor
  · intro h
    cases i with
    | enterCmd b =>
      obtain ⟨⟨h1, rfl⟩, h2⟩ := require_next.mp h
      cases h2
      exact .enterCmd h1
    | textPut b =>
      obtain ⟨⟨h1, h2⟩, h3⟩ := require_next.mp h
      obtain ⟨h4, rfl⟩ := textPush_ok.mp (finish_next.mp h3)
      exact .textPut h1 h2 h4
    | cmdEnd b =>
      obtain ⟨⟨h1, rfl⟩, h3⟩ := require_next.mp h
      obtain ⟨h4, rfl⟩ := endCommand_ok.mp (finish_next.mp h3)
      exact .cmdEnd h1 h4
    | cmdPut b =>
      obtain ⟨⟨h1, h2, h5⟩, h3⟩ := require_next.mp h
      obtain ⟨_, rfl⟩ := appendCommand_ok.mp (finish_next.mp h3)
      exact .cmdPut h1 h2 h5
    | cmdDrop b =>
      obtain ⟨⟨h1, h2, h3⟩, h4⟩ := require_next.mp h
      cases h4
      exact .cmdDrop h1 h2 h3
    | tickStartEmpty =>
      obtain ⟨⟨h1, h2⟩, h3⟩ := require_next.mp h
      cases h3
      exact .startEmpty h1 h2
    | tickStartData =>
      obtain ⟨h1, h2, p, u, h3, h4, rfl⟩ := startFromCodec_next.mp h
      obtain ⟨b, h5, h6, h7⟩ := codecResolve_ok.mp h3
      cases h7 with
      | noCode _ => simp [isData] at h4
      | data hl => exact .startData h1 h2 h5 h6 hl
      | shift _ _ => simp [isData] at h4
    | tickStartShift =>
      obtain ⟨h1, h2, p, u, h3, h4, rfl⟩ := startFromCodec_next.mp h
      obtain ⟨b, h5, h6, h7⟩ := codecResolve_ok.mp h3
      cases h7 with
      | noCode _ => simp [isShift] at h4
      | data _ => simp [isShift] at h4
      | shift hl hq => exact .startShift h1 h2 h5 h6 hl hq
    | tickStartNoCode =>
      obtain ⟨h1, h2, p, u, h3, h4, rfl⟩ := startFromCodec_next.mp h
      obtain ⟨b, h5, h6, h7⟩ := codecResolve_ok.mp h3
      cases h7 with
      | noCode hl => exact .startNoCode h1 h2 h5 h6 hl
      | data _ => simp at h4
      | shift _ _ => simp at h4
    | tickBit =>
      obtain ⟨⟨h1, h2⟩, h3⟩ := require_next.mp h
      cases h3
      exact .bit h1 h2
    | tickStop =>
      obtain ⟨h1, h3⟩ := require_next.mp h
      cases h3
      exact .stop h1
    | hostAck =>
      cases h
      exact .ack
    | hostRead k =>
      by_cases hk : readIndex k ≥ s.cfg.C2
      · have hr : exec (.hostRead k) s = .refused .readIndexOutOfRange := if_pos hk
        rw [hr] at h
        cases h
      · cases hb : memRead .cbuf (readIndex k) s with
        | error f => simp [exec, execHostRead, hk, hb] at h
        | ok b =>
          simp only [exec, execHostRead, hk, hb, if_false, Host.Outcome.next.injEq] at h
          exact h ▸ .read (Nat.lt_of_not_le hk) (memRead_ok.mp hb).2
  · intro h
    cases h with
    | enterCmd h1 => exact require_next.mpr ⟨⟨h1, rfl⟩, rfl⟩
    | textPut h1 h2 h3 => exact require_next.mpr ⟨⟨h1, h2⟩, finish_next.mpr (textPush_ok.mpr ⟨h3, rfl⟩)⟩
    | cmdEnd h1 h2 => exact require_next.mpr ⟨⟨h1, rfl⟩, finish_next.mpr (endCommand_ok.mpr ⟨h2, rfl⟩)⟩
    | cmdPut h1 h2 h3 =>
      exact require_next.mpr ⟨⟨h1, h2, h3⟩, finish_next.mpr (appendCommand_ok.mpr ⟨by omega, rfl⟩)⟩
    | cmdDrop h1 h2 h3 => exact require_next.mpr ⟨⟨h1, h2, h3⟩, rfl⟩
    | startEmpty h1 h2 => exact require_next.mpr ⟨⟨h1, h2⟩, rfl⟩
    | startData h1 h2 h3 h4 h5 =>
      exact startFromCodec_next.mpr ⟨h1, h2, _, _, codecResolve_ok.mpr ⟨_, h3, h4, .data h5⟩, rfl, rfl⟩
    | startShift h1 h2 h3 h4 h5 h6 =>
      exact startFromCodec_next.mpr
        ⟨h1, h2, _, _, codecResolve_ok.mpr ⟨_, h3, h4, .shift h5 h6⟩, rfl, rfl⟩
    | startNoCode h1 h2 h3 h4 h5 =>
      exact startFromCodec_next.mpr ⟨h1, h2, _, _, codecResolve_ok.mpr ⟨_, h3, h4, .noCode h5⟩, rfl, rfl⟩
    | bit h1 h2 => exact require_next.mpr ⟨⟨h1, h2⟩, rfl⟩
    | stop h1 => exact require_next.mpr ⟨h1, rfl⟩
    | ack => rfl
    | read h1 h2 =>
      have hr := (memRead_ok (sp := .cbuf)).mpr ⟨h1, h2⟩
      simp [exec, execHostRead, readIndex, Nat.not_le.mpr h1, hr]

/-- A step that takes an event word. -/
theorem step_cons {s : State} {ev : EventWord} {rest : List EventWord} (hc : s.cfg.ok = true)
    (hi : s.input = ev :: rest) :
    step s = match decode (view s) ev with
      | .ok i => exec i { s with input := rest }
      | .error r => stop { s with input := rest } r := by
  unfold step nextEvent
  rw [if_pos hc, hi]
  rfl

/-- A step answers a next state in two ways: no event has come, or the event's operation answers it. -/
theorem step_next {s t : State} (h : step s = .next t) :
    s.cfg.ok = true ∧ ((s.input = [] ∧ t = s) ∨
      ∃ ev rest i, s.input = ev :: rest ∧ decode (view s) ev = .ok i ∧
        Effect { s with input := rest } i t) := by
  by_cases hc : s.cfg.ok = true
  · refine ⟨hc, ?_⟩
    cases hi : s.input with
    | nil =>
      unfold step nextEvent at h
      rw [if_pos hc, hi] at h
      cases h
      exact .inl ⟨rfl, rfl⟩
    | cons ev rest =>
      rw [step_cons hc hi] at h
      cases hd : decode (view s) ev with
      | ok i =>
        rw [hd] at h
        exact .inr ⟨ev, rest, i, rfl, hd, exec_next.mp h⟩
      | error r =>
        rw [hd] at h
        cases r <;> cases h
  · unfold step at h
    rw [if_neg hc] at h
    cases h

end Sys2Proof.Machine
end

