-- ==== Sys2Proof/Laws/Parameters.lean ====
section
/-! SUPPORT. What the configuration check says, and the Code Table as a function. -/

namespace Sys2Proof

/-- A checked configuration has the capacities of R6 and R7. -/
theorem Config.ok_bounds {c : Config} (h : c.ok = true) : 2 ≤ c.C1 ∧ 2 ≤ c.C2 ∧ c.C2 ≤ 256 := by
  simp only [Config.ok, Bool.and_eq_true, decide_eq_true_eq] at h
  exact ⟨h.1.1.1.1.1.1, h.1.1.1.1.1.2, h.1.1.1.1.2⟩

/-- The check of the characters is that none is listed twice. -/
theorem charsDistinct_iff (t : List TableEntry) :
    charsDistinct t = true ↔ (t.map TableEntry.char).Nodup := by
  have : (t.map fun e => e.char.toNat) = (t.map TableEntry.char).map BitVec.toNat := by simp
  rw [charsDistinct, decide_eq_true_iff, this]
  exact List.nodup_map_iff (fun a b h => BitVec.eq_of_toNat_eq h)

/-- The check of the codes is that no pair of code and shift is listed twice (R72(c)). -/
theorem codesDistinct_iff (t : List TableEntry) :
    codesDistinct t = true ↔ (t.map fun e => (e.code, e.shift)).Nodup := by
  have : (t.map fun e => 2 * e.code.toNat + (if e.shift = .figures then 1 else 0)) =
      (t.map fun e => (e.code, e.shift)).map
        (fun x : Code × Shift => 2 * x.1.toNat + (if x.2 = .figures then 1 else 0)) := by simp
  rw [codesDistinct, decide_eq_true_iff, this]
  refine List.nodup_map_iff ?_
  rintro ⟨a, p⟩ ⟨b, q⟩ h
  have : a.toNat = b.toNat ∧ p = q := by
    cases p <;> cases q <;> simp at h ⊢ <;> omega
  exact Prod.ext (BitVec.eq_of_toNat_eq this.1) this.2

/-- Where no character is listed twice, a listed entry is the one found for its character. -/
theorem find_char {t : List TableEntry} (h : (t.map TableEntry.char).Nodup) {e : TableEntry}
    (he : e ∈ t) : t.find? (fun x => x.char == e.char) = some e := by
  induction t with
  | nil => cases he
  | cons a t ih =>
    rw [List.map_cons, List.nodup_cons] at h
    rcases List.mem_cons.mp he with rfl | he
    · simp
    · have : a.char ≠ e.char := fun hh => h.1 (hh ▸ List.mem_map_of_mem he)
      rw [List.find?_cons_of_neg (by simpa using this)]
      exact ih h.2 he

/-- Where no character is listed twice, the lookup finds exactly the listed entries (R11, R93). -/
theorem lookup_iff {c : Config} (h : (c.codeTable.map TableEntry.char).Nodup) {b : Byte} {k : Code}
    {q : Shift} : lookup c b = some (k, q) ↔ (⟨b, k, q⟩ : TableEntry) ∈ c.codeTable := by
  constructor
  · intro hl
    obtain ⟨e, he, hx⟩ := Option.map_eq_some_iff.mp hl
    have hb := List.find?_some he
    rw [beq_iff_eq] at hb
    obtain ⟨rfl, rfl⟩ := Prod.mk.injEq .. ▸ hx
    exact hb ▸ List.mem_of_find?_eq_some he
  · intro hm
    have hf : c.codeTable.find? (fun x => x.char == b) = some ⟨b, k, q⟩ := find_char h hm
    simp [lookup, hf]

end Sys2Proof
end

