-- ==== Sys2Proof/Laws/Run.lean ====
section
/-! SUPPORT. Runs of several steps, and what a next event does when its operation is known. -/

namespace Sys2Proof.Machine

@[simp] theorem run_zero (s : State) : Host.Core.run Sys2Proof.core 0 s = .next s := rfl

/-- For any machine: a run of one step more is a run from the state that the first step leads to. -/
theorem machine_run_succ (M : Host.Core) {s u : M.State} (k : Nat) (h : M.step s = .next u) :
    M.run (k + 1) s = M.run k u := by
  rw [Host.Core.run, h]

/-- For any machine: a run goes on from where a shorter run ends. -/
theorem machine_run_add (M : Host.Core) {a : Nat} (b : Nat) {s u : M.State}
    (h : M.run a s = .next u) : M.run (a + b) s = M.run b u := by
  induction a generalizing s with
  | zero =>
    cases h
    rw [Nat.zero_add]
  | succ a ih =>
    rw [Nat.add_right_comm]
    cases hs : M.step s with
    | next v =>
      rw [Host.Core.run, hs] at h ⊢
      exact ih h
    | fault f =>
      rw [Host.Core.run, hs] at h
      cases h
    | refused r =>
      rw [Host.Core.run, hs] at h
      cases h

theorem run_succ {s u : State} (k : Nat) (h : step s = .next u) :
    Host.Core.run Sys2Proof.core (k + 1) s = Host.Core.run Sys2Proof.core k u :=
  machine_run_succ Sys2Proof.core k h

theorem run_add {a : Nat} (b : Nat) {s u : State}
    (h : Host.Core.run Sys2Proof.core a s = .next u) :
    Host.Core.run Sys2Proof.core (a + b) s = Host.Core.run Sys2Proof.core b u :=
  machine_run_add Sys2Proof.core b h

/-- The step of an event whose operation and effect are known. -/
theorem step_of_effect {s t : State} {ev : EventWord} {rest : List EventWord} {i : Instr}
    (hc : s.cfg.ok = true) (hi : s.input = ev :: rest) (hd : decode (view s) ev = .ok i)
    (he : Effect { s with input := rest } i t) : step s = .next t := by
  rw [step_cons hc hi, hd]
  exact exec_next.mpr he

/-- An operation does not touch the events still waiting. -/
theorem Effect.input {s t : State} {i : Instr} (h : Effect s i t) : t.input = s.input := by
  cases h <;> rfl

end Sys2Proof.Machine
end

