-- ==== Sys2Proof/Laws/Environment.lean ====
section
/-! SUPPORT. The environment and its infinite runs. -/

namespace Sys2Proof.Machine

/-- The sender that a word's KIND tells is the agent of the operation the word names. -/
theorem senderOf_encode (i : Instr) : senderOf (encode i) = agentOf i := by
  cases i <;> simp [senderOf, encode, agentOf, evByte, evRead, evTick_eq, evAck_eq]

@[simp] theorem sendEvent_input (ev : EventWord) (s : State) :
    (sendEvent ev s).input = s.input ++ [ev] := rfl
@[simp] theorem sendEvent_cfg (ev : EventWord) (s : State) : (sendEvent ev s).cfg = s.cfg := rfl
@[simp] theorem view_sendEvent (ev : EventWord) (s : State) : view (sendEvent ev s) = view s := rfl

/-- No operation writes the parameters. -/
theorem Effect.cfg {s t : State} {i : Instr} (h : Effect s i t) : t.cfg = s.cfg := by
  cases h <;> rfl

/-- With the sent event taken, a state without waiting events is as it was. -/
theorem sendEvent_taken {s : State} {ev : EventWord} (hi : s.input = []) :
    { sendEvent ev s with input := [] } = s := by
  cases s
  subst hi
  rfl

/-- A step that is sent its one event executes the operation the event's word decodes to. -/
theorem step_sendEvent {s t : State} {ev : EventWord} (hi : s.input = [])
    (h : step (sendEvent ev s) = .next t) : ∃ i, decode (view s) ev = .ok i ∧ Effect s i t := by
  have hs := sendEvent_taken (ev := ev) hi
  obtain ⟨-, ⟨h1, -⟩ | ⟨e, rest, i, h1, h2, h3⟩⟩ := step_next h
  · simp at h1
  · rw [sendEvent_input, hi, List.nil_append, List.cons.injEq] at h1
    obtain ⟨rfl, rfl⟩ := h1
    rw [hs] at h3
    exact ⟨i, h2, h3⟩

/-- An event sent to a checked state answers the next state of its operation. -/
theorem step_sendEvent_of {s t : State} {ev : EventWord} {i : Instr} (hc : s.cfg.ok = true)
    (hi : s.input = []) (hd : decode (view s) ev = .ok i) (he : Effect s i t) :
    step (sendEvent ev s) = .next t := by
  refine step_of_effect (s := sendEvent ev s) hc (by rw [sendEvent_input, hi]; rfl) hd ?_
  have hs := sendEvent_taken (ev := ev) hi
  rw [hs]
  exact he

section run
variable {c : Config} {ev : Nat → EventWord} {run : Nat → State}

/-- The run starts in the reset state of a checked configuration. -/
theorem IsRun.start (h : IsRun c ev run) : c.ok = true ∧ run 0 = State.resetOf c := by
  have h0 := h.1
  unfold boot at h0
  split at h0
  · exact ⟨‹_›, (Host.Outcome.next.inj h0).symm⟩
  · cases h0

/-- No event waits between two steps of a run. -/
theorem IsRun.input (h : IsRun c ev run) (n : Nat) : (run n).input = [] := by
  induction n with
  | zero => rw [h.start.2]; rfl
  | succ n ih =>
    obtain ⟨i, -, he⟩ := step_sendEvent ih (h.2 n)
    rw [he.input, ih]

/-- The parameters of a run. -/
theorem IsRun.cfg (h : IsRun c ev run) (n : Nat) : (run n).cfg = c := by
  induction n with
  | zero => rw [h.start.2]; rfl
  | succ n ih =>
    obtain ⟨i, -, he⟩ := step_sendEvent (h.input n) (h.2 n)
    rw [he.cfg, ih]

/-- What each event of a run does. -/
theorem IsRun.effect (h : IsRun c ev run) (n : Nat) :
    ∃ i, decode (view (run n)) (ev n) = .ok i ∧ Effect (run n) i (run (n + 1)) :=
  step_sendEvent (h.input n) (h.2 n)

/-- Every state of a run is one the statements about reachable states speak of. -/
theorem IsRun.reachable (h : IsRun c ev run) (n : Nat) : Reachable (run n) := by
  induction n with
  | zero => exact .boot h.1
  | succ n ih => exact .step (.send (ev n) ih) (h.2 n)

end run

/-- The ticks counted so far never become fewer. -/
theorem tickCount_mono (ev : Nat → EventWord) {n m : Nat} (h : n ≤ m) :
    tickCount ev n ≤ tickCount ev m := by
  induction h with
  | refl => exact Nat.le_refl _
  | step _ ih => exact Nat.le_trans ih (Nat.le_add_right ..)

/-- The words the agents may send are exactly those that name an event: all but the words of R82. -/
theorem maySend_iff (c : Config) (w : EventWord) :
    maySend c (senderOf w) w = true ↔ ∃ e, decodeWord c.C2 w = .ok e := by
  obtain ⟨k, p, rfl⟩ : ∃ k p, w = evWord k p := ⟨_, _, (evWord_fields w).symm⟩
  have hk : k = 0b00#2 ∨ k = 0b01#2 ∨ k = 0b10#2 ∨ k = 0b11#2 := by revert k; decide
  have hw : ∀ q, evWord k p = evWord k q ↔ p = q := fun q =>
    ⟨fun h => by simpa using congrArg evPayload h, fun h => h ▸ rfl⟩
  rcases hk with rfl | rfl | rfl | rfl
  · simp [maySend, senderOf, decodeWord]
  · by_cases hp : p = 0x00#8 <;> simp [maySend, senderOf, decodeWord, evTick_eq, hw, hp]
  · by_cases hp : p = 0x00#8 <;> simp [maySend, senderOf, decodeWord, evAck_eq, hw, hp]
  · have ha : evWord 0b11#2 p ≠ evAck := fun h => by
      have := congrArg evKind h
      rw [evAck_eq, evKind_evWord, evKind_evWord] at this
      cases this
    by_cases hp : p.toNat < c.C2 <;> simp [maySend, senderOf, decodeWord, ha, hp]

/-- No run holds a word that its agent may not send: the step would be refused. -/
theorem IsRun.lawful {c : Config} {ev : Nat → EventWord} {run : Nat → State} (h : IsRun c ev run) :
    LawfulSends c ev := by
  intro n
  obtain ⟨i, hd, -⟩ := h.effect n
  rw [maySend_iff]
  unfold decode at hd
  rw [view_cfg, h.cfg n] at hd
  cases he : decodeWord c.C2 (ev n) with
  | ok e => exact ⟨e, rfl⟩
  | error r =>
    rw [he] at hd
    cases hd

end Sys2Proof.Machine
end

