-- ==== Sys2Proof/Laws/Invariant.lean ====
section
/-! SUPPORT. The invariants do not speak of the event stream. -/

namespace Sys2Proof.Machine

/-- The invariants hold whatever events are waiting. -/
theorem BlockInv.withInput {s : State} (h : BlockInv s) (l : List EventWord) :
    BlockInv { s with input := l } where
  config := h.config
  rd_lt := h.rd_lt
  wr_lt := h.wr_lt
  coff_le := h.coff_le
  idle_at_slot_zero := h.idle_at_slot_zero
  mark_without_data := h.mark_without_data
  coff_zero_in_data := h.coff_zero_in_data
  long_iff_slot_one := h.long_iff_slot_one
  shift_code_current := h.shift_code_current
  data_code_current := h.data_code_current
  window_written := h.window_written
  tbuf_wf := h.tbuf_wf
  tbuf_inside := h.tbuf_inside
  cbuf_wf := h.cbuf_wf
  cbuf_inside := h.cbuf_inside

end Sys2Proof.Machine
end

