-- ==== Sys2Proof/Laws/PerInstr.lean ====
section
/-! SUPPORT. Statements for all instructions, one lemma per constructor. -/

namespace Sys2Proof.Laws.OpcodeRow

/-- The encoder's word lies in the row of spec/opcode_table.json: under the row's mask it equals the
row's match, with the configured bytes (R83). -/
def Statement (i : Instr) : Prop :=
  ∀ c : Config, i.wellFormed c = true → encode i &&& (opcodeRow c i).mask = (opcodeRow c i).matched

/-- Bits 9 and 8 of a BYTE word are 0. -/
theorem byte_row : ∀ b : Byte, evByte b &&& 0x300 = 0x000 := by decide

/-- The mask 0x3FF keeps the whole word. -/
theorem full_mask (ev : EventWord) : ev &&& 0x3FF = ev := BitVec.and_allOnes

theorem enterCmd (b : Byte) : Statement (.enterCmd b) := fun c h => by
  obtain rfl : b = c.escByte := by simpa [Instr.wellFormed] using h
  exact full_mask _

theorem textPut (b : Byte) : Statement (.textPut b) := fun _ _ => byte_row b

theorem cmdEnd (b : Byte) : Statement (.cmdEnd b) := fun c h => by
  obtain rfl : b = c.termByte := by simpa [Instr.wellFormed] using h
  exact full_mask _

theorem cmdPut (b : Byte) : Statement (.cmdPut b) := fun _ _ => byte_row b

theorem cmdDrop (b : Byte) : Statement (.cmdDrop b) := fun _ _ => byte_row b

theorem tickStartEmpty : Statement .tickStartEmpty := fun _ _ => full_mask _

theorem tickStartData : Statement .tickStartData := fun _ _ => full_mask _

theorem tickStartShift : Statement .tickStartShift := fun _ _ => full_mask _

theorem tickStartNoCode : Statement .tickStartNoCode := fun _ _ => full_mask _

theorem tickBit : Statement .tickBit := fun _ _ => full_mask _

theorem tickStop : Statement .tickStop := fun _ _ => full_mask _

theorem hostAck : Statement .hostAck := fun _ _ => full_mask _

theorem hostRead (i : Byte) : Statement (.hostRead i) := fun _ _ =>
  (by decide : ∀ k : Byte, evRead k &&& 0x300 = 0x300) i

end Sys2Proof.Laws.OpcodeRow
end

