-- ==== Sys2Proof/Tests/Slice0.lean ====
section
/-! SUPPORT. Small tests of one step each, their expected results from spec/95_test_vectors.md (the
vector is named in each comment) or written out from the encodings of spec/30_encoding.md; the smoke
tests of the checks; and a witness for the hypotheses of every statement. -/

namespace Sys2Proof.Tests

open Sys2Proof Sys2Proof.Machine

/-! ## Helpers -/

/-- What a field of the next state is; none where there is no next state. -/
def after {α : Type} (r : Result) (f : State → α) : Option α :=
  match r with
  | .next t => some (f t)
  | .fault _ => none
  | .refused _ => none

/-- The fault of an outcome. -/
def faultOf : Result → Option Fault
  | .next _ => none
  | .fault f => some f
  | .refused _ => none

/-- The refusal of an outcome. -/
def refusalOf : Result → Option Refusal
  | .next _ => none
  | .fault _ => none
  | .refused r => some r

/-- The vectors' configuration with a Command Buffer of four cells. -/
def cfg4 : Config := Config.standard .ita2Intl 8 4 1

/-- Reset with one unread character in cell 0. -/
def textState (b : Byte) : State := { State.reset with tbuf := [(0, b)], wr := 1 }

/-- Reset in COMMAND mode with an offset. -/
def cmdState (c : Config) (k : Nat) : State := { State.resetOf c with mode := .command, coff := k }

/-- A frame at a slot. -/
def frameState (p : Pending) (k : Slot) (l : Level) : State :=
  { State.reset with pending := p, slot := k, line := l }

/-- After `\+CMD\n` from reset (E3). -/
def e3 : State := { State.reset with
  ready := true, cbuf := [(0, 0x2B), (1, 0x43), (2, 0x4D), (3, 0x44), (4, 0x00)] }

/-- The view of a state with the default configuration. -/
def v0 : View := View.atReset Config.default

/-! ## The checks refuse -/

theorem test_wf_enterCmd : (Instr.enterCmd 0x41).wellFormed Config.default = false := by decide
theorem test_wf_textPut : (Instr.textPut 0x5C).wellFormed Config.default = false := by decide
theorem test_wf_cmdEnd : (Instr.cmdEnd 0x5C).wellFormed Config.default = false := by decide
theorem test_wf_cmdPut : (Instr.cmdPut 0x0A).wellFormed Config.default = false := by decide
theorem test_wf_cmdDrop : (Instr.cmdDrop 0x0A).wellFormed Config.default = false := by decide
theorem test_wf_hostRead : (Instr.hostRead 0x08).wellFormed Config.default = false := by decide

/-- R6, R7: capacities out of range. -/
theorem test_config_capacities : (Config.standard .usTty 1 8 1).ok = false ∧
    (Config.standard .usTty 8 1 1).ok = false ∧ (Config.standard .usTty 8 257 1).ok = false := by
  decide

/-- R72(b): a mapped entry with a shift-switch code. -/
theorem test_config_reserved_code : ({ Config.default with ltrsCode := 0x03 } : Config).ok = false := by
  decide

/-- R72(c): two characters with one code and shift. -/
theorem test_config_not_injective : ({ Config.default with
    codeTable := ⟨0x61, 0x03, .letters⟩ :: Config.default.codeTable } : Config).ok = false := by decide

/-- R72(e): 'A' must be 0x03 in LETTERS. -/
theorem test_config_letter_a : ({ Config.default with codeTable := [] } : Config).ok = false := by decide

/-- R11: one character listed twice. -/
theorem test_config_not_a_function : ({ Config.default with
    codeTable := ⟨0x41, 0x00, .letters⟩ :: Config.default.codeTable } : Config).ok = false := by decide

/-! ## Words written out from R78 to R83 decode to their operation -/

theorem test_word_enterCmd : decode v0 0b0001011100 = .ok (.enterCmd 0x5C) := by decide
theorem test_word_textPut : decode v0 0b0000001010 = .ok (.textPut 0x0A) := by decide
theorem test_word_cmdEnd :
    decode { v0 with mode := .command } 0b0000001010 = .ok (.cmdEnd 0x0A) := by decide
theorem test_word_cmdPut :
    decode { v0 with mode := .command, coff := 6 } 0b0001011100 = .ok (.cmdPut 0x5C) := by decide
theorem test_word_cmdDrop :
    decode { v0 with mode := .command, coff := 7 } 0b0011111111 = .ok (.cmdDrop 0xFF) := by decide
theorem test_word_startEmpty : decode v0 0b0100000000 = .ok .tickStartEmpty := by decide
theorem test_word_startData :
    decode { v0 with empty := false, oldest := some 0x41 } 0b0100000000 = .ok .tickStartData := by decide
theorem test_word_startShift :
    decode { v0 with empty := false, oldest := some 0x31 } 0b0100000000 = .ok .tickStartShift := by decide
theorem test_word_startNoCode :
    decode { v0 with empty := false, oldest := some 0x61 } 0b0100000000 = .ok .tickStartNoCode := by decide
theorem test_word_tickBit : decode { v0 with slot := 1 } 0b0100000000 = .ok .tickBit ∧
    decode { v0 with slot := 5 } 0b0100000000 = .ok .tickBit := by decide
theorem test_word_tickStop : decode { v0 with slot := 6 } 0b0100000000 = .ok .tickStop := by decide
theorem test_word_hostAck : decode v0 0b1000000000 = .ok .hostAck := by decide
theorem test_word_hostRead : decode v0 0b1100000111 = .ok (.hostRead 0x07) := by decide

/-- V-R1, V-R2, V-R3, V-H7. -/
theorem test_word_refused : decode v0 0x101 = .error .reservedTickPayload ∧
    decode v0 0x1FF = .error .reservedTickPayload ∧ decode v0 0x2A0 = .error .reservedAckPayload ∧
    decode v0 0x308 = .error .readIndexOutOfRange := by decide

/-- R83's own word list: 041, 100, 200, 304. -/
theorem test_encode_words : encode (.textPut 0x41) = 0x041 ∧ encode .tickStop = 0x100 ∧
    encode .hostAck = 0x200 ∧ encode (.hostRead 4) = 0x304 := by decide

/-- R86: `BYTES "A1A"` of program P2, and `FRAME`. -/
theorem test_trace_syntax : evBytes [0x41, 0x31, 0x41] = [0x041, 0x031, 0x041] ∧
    evFrame.length = 7 ∧ evFrames 6 = List.replicate 42 0x100 := by decide

theorem test_table_word : decodeTableWord 16 0x05C = some (.enterCmd 0x5C) ∧
    decodeTableWord 16 0x100 = some .tickStartEmpty ∧ decodeTableWord 16 0x101 = none := by decide

/-! ## The Code Table -/

/-- R15, R69: a pattern in transmission order, first digit = bit 0. -/
def pattern (a b c d e : Bool) : Code :=
  BitVec.ofBool e ++ BitVec.ofBool d ++ BitVec.ofBool c ++ BitVec.ofBool b ++ BitVec.ofBool a

/-- The lookup spot values of spec/95_test_vectors.md §2.2, value and pattern. -/
theorem test_lookup_spots : lookup Config.default 0x45 = some (pattern true false false false false, .letters) ∧
    lookup Config.default 0x54 = some (pattern false false false false true, .letters) ∧
    lookup Config.default 0x4D = some (pattern false false true true true, .letters) ∧
    lookup Config.default 0x56 = some (pattern false true true true true, .letters) ∧
    lookup Config.default 0x30 = some (0x16, .figures) ∧ lookup Config.default 0x39 = some (0x18, .figures) ∧
    lookup Config.default 0x2F = some (0x1D, .figures) ∧ lookup Config.default 0x3F = some (0x19, .figures) ∧
    lookup Config.default 0x61 = none ∧ lookup Config.default 0x00 = none ∧
    lookup Config.default 0x5C = none := by decide

/-- E8 and R101. -/
theorem test_inverse_spots : charOf Config.default 0x03 .letters = some 0x41 ∧
    charOf Config.default 0x17 .figures = some 0x31 ∧ charOf Config.default 0x04 .letters = some 0x20 ∧
    charOf Config.default 0x04 .figures = none ∧ charOf Config.default 0x00 .letters = none := by decide

/-- R71: the shift-switch codes in transmission order. -/
theorem test_shift_codes : shiftCode Config.default .letters = pattern true true true true true ∧
    shiftCode Config.default .figures = pattern true true false true true := by decide

/-- R76: key S in both variants. -/
theorem test_variants : lookup (Config.standard .ita2Intl 8 8 1) 0x27 = some (0x05, .figures) ∧
    lookup (Config.standard .usTty 8 8 1) 0x27 = some (0x0B, .figures) := by decide

/-! ## BYTE operations -/

/-- V-D1. -/
theorem test_enterCmd : after (exec (.enterCmd 0x5C) State.reset) (fun t => (t.mode, t.coff, t.wr)) =
    some (.command, 0, 0) := by decide

/-- V-D3: the write cursor wraps. -/
theorem test_textPut_wraps : after (exec (.textPut 0x41) { State.reset with rd := 3, wr := 7 })
    (fun t => (t.tbuf.read 7, t.wr, unread t)) = some (some 0x41, 0, 5) := by decide

/-- V-D4: the eighth push makes the buffer read as empty. -/
theorem test_textPut_overflow : after (exec (.textPut 0x48) { State.reset with wr := 7 })
    (fun t => (t.wr, textEmpty t)) = some (0, true) := by decide

/-- V-D8: an empty command. -/
theorem test_cmdEnd_empty : after (exec (.cmdEnd 0x0A) (cmdState Config.default 0))
    (fun t => (t.cbuf.read 0, t.mode, t.ready)) = some (some 0x00, .data, true) := by decide

/-- V-D9: `ready` already pending. -/
theorem test_cmdEnd_pending : after (exec (.cmdEnd 0x0A) { cmdState Config.default 3 with ready := true })
    (fun t => (t.cbuf.read 3, t.ready, t.coff)) = some (some 0x00, true, 0) := by decide

/-- V-D7: the escape byte is data in COMMAND mode. -/
theorem test_cmdPut_escape : after (exec (.cmdPut 0x5C) (cmdState Config.default 2))
    (fun t => (t.cbuf.read 2, t.coff, t.mode)) = some (some 0x5C, 3, .command) := by decide

/-- V-D11. -/
theorem test_cmdPut_last : after (exec (.cmdPut 0x58) (cmdState cfg4 2))
    (fun t => (t.cbuf.read 2, t.coff)) = some (some 0x58, 3) := by decide

/-- V-D10. -/
theorem test_cmdDrop : after (exec (.cmdDrop 0x59) (cmdState cfg4 3)) (fun t => (t.cbuf, t.coff)) =
    some ([], 3) := by decide

/-! ## TICK operations -/

/-- V-T1. -/
theorem test_startEmpty : after (exec .tickStartEmpty State.reset)
    (fun t => (t.pending, t.line, t.period, t.slot)) = some (.noData, .mark, .long, 1) := by decide

/-- V-T2. -/
theorem test_startData : after (exec .tickStartData (textState 0x41))
    (fun t => (t.rd, t.pending, t.line, t.period, t.slot)) =
      some (1, .data 0x03, .space, .long, 1) := by decide

/-- V-C10: the read cursor wraps. -/
theorem test_startData_wraps : after
    (exec .tickStartData { State.reset with rd := 7, tbuf := [(7, 0x45)] })
    (fun t => (t.rd, t.pending)) = some (0, .data 0x01) := by decide

/-- V-T3. -/
theorem test_startShift : after (exec .tickStartShift (textState 0x31))
    (fun t => (t.shift, t.pending, t.line, t.rd, t.slot)) =
      some (.figures, .shift 0x1B, .space, 0, 1) := by decide

/-- V-C7: a space needs LETTERS. -/
theorem test_startShift_space : after (exec .tickStartShift { textState 0x20 with shift := .figures })
    (fun t => (t.shift, t.pending)) = some (.letters, .shift 0x1F) := by decide

/-- V-T4. -/
theorem test_startNoCode : after (exec .tickStartNoCode (textState 0x7E))
    (fun t => (t.rd, t.pending, t.line, t.period, t.slot)) =
      some (1, .noData, .mark, .long, 1) := by decide

/-- V-T6: bit 2 of 0x03 is 0. -/
theorem test_tickBit_data : after (exec .tickBit (frameState (.data 0x03) 3 .mark))
    (fun t => (t.line, t.period, t.slot)) = some (.space, .std, 4) := by decide

/-- V-T7: bit 4 of 0x1F is 1. -/
theorem test_tickBit_shift : after (exec .tickBit (frameState (.shift 0x1F) 5 .space))
    (fun t => (t.line, t.slot)) = some (.mark, 6) := by decide

/-- V-T9. -/
theorem test_tickStop : after (exec .tickStop (frameState (.data 0x03) 6 .space))
    (fun t => (t.line, t.pending, t.slot)) = some (.mark, .noData, 0) := by decide

/-- R150: the observation after a TICK. -/
theorem test_tick_trace : after (exec .tickStartData (textState 0x41)) (fun t => t.trace) =
    some [.line .space .long] := by decide

/-! ## Host operations -/

/-- V-H1, V-H2. -/
theorem test_hostAck : after (exec .hostAck e3) (fun t => t.ready) = some false ∧
    after (exec .hostAck State.reset) (fun t => t.ready) = some false := by decide

/-- V-H3, V-H4. -/
theorem test_hostRead : after (exec (.hostRead 0) e3) (fun t => (ports t).rdata) = some (some 0x2B) ∧
    after (exec (.hostRead 4) e3) (fun t => (ports t).rdata) = some (some 0x00) := by decide

/-- V-H5, V-H6, V-H7. -/
theorem test_hostRead_stops : faultOf (exec (.hostRead 5) e3) = some .readUnwritten ∧
    faultOf (exec (.hostRead 0) State.reset) = some .readUnwritten ∧
    refusalOf (exec (.hostRead 8) e3) = some .readIndexOutOfRange := by decide

/-- E3 and R117: the host reads `+CMD` and its prefix passes. -/
theorem test_commandString : commandString e3 = some [0x2B, 0x43, 0x4D, 0x44] ∧
    hostAccepts e3 = true := by decide

/-! ## Steps -/

theorem test_step_takes_the_event : after (step (State.reset.withFetchWord 16 0x041))
    (fun t => (t.input, t.tbuf.read 0, t.wr)) = some ([], some 0x41, 1) := by decide

theorem test_step_refuses_configuration :
    refusalOf (step (State.resetOf (Config.standard .ita2Intl 1 8 1))) = some .badConfiguration := by decide

/-- R34: the ports after reset. -/
theorem test_ports : ports State.reset = ⟨1, 0, 0, none⟩ := by decide

/-- R137: the machine's reset is the initialization of the default configuration. -/
theorem test_reset_is_boot : after (boot Config.default) id = some State.reset := by decide

/-- R20, R28: the register encodings. -/
theorem test_register_bits : shiftBits .figures = 1 ∧ modeBits .command = 1 ∧ levelBits .mark = 1 ∧
    periodBits .long = 1 ∧ slotBits 6 = 0b110 ∧ pendingBits (.shift 0x1B) = 0b1011011 := by decide

/-! ## Witnesses: the hypotheses of the statements can be met -/

/-- Three unread characters round the wrap of the ring, a pending command, slot 0. -/
def live : State := { e3 with tbuf := [(0, 0x7E), (6, 0x41), (7, 0x31)], rd := 6, wr := 1 }

theorem live_inv : BlockInv live where
  config := by decide
  rd_lt := by decide
  wr_lt := by decide
  coff_le := by decide
  idle_at_slot_zero := by decide
  mark_without_data := by decide
  coff_zero_in_data := by decide
  long_iff_slot_one := by decide
  shift_code_current := fun _ h => nomatch h
  data_code_current := fun _ h => nomatch h
  window_written := by decide
  tbuf_wf := by decide
  tbuf_inside := by decide
  cbuf_wf := by decide
  cbuf_inside := by decide

/-- The same with the '1' oldest, which needs FIGURES. -/
def liveShift : State := { live with rd := 7 }

theorem liveShift_inv : BlockInv liveShift where
  config := by decide
  rd_lt := by decide
  wr_lt := by decide
  coff_le := by decide
  idle_at_slot_zero := by decide
  mark_without_data := by decide
  coff_zero_in_data := by decide
  long_iff_slot_one := by decide
  shift_code_current := fun _ h => nomatch h
  data_code_current := fun _ h => nomatch h
  window_written := by decide
  tbuf_wf := by decide
  tbuf_inside := by decide
  cbuf_wf := by decide
  cbuf_inside := by decide

theorem witness_DecodeOfEncode : (Instr.cmdPut 0x58).wellFormed Config.default = true ∧
    (Instr.cmdPut 0x58).condition { v0 with mode := .command, coff := 6 } = true := by decide

theorem witness_EncodeOfDecode : decode v0 0x307 = .ok (.hostRead 0x07) := by decide

/-- Each clause, at the offsets where CMD_PUT and CMD_DROP meet. -/
theorem witness_ByteWordsNameTheirOperation :
    (v0.mode = .data ∧ (0x5C : Byte) = v0.cfg.escByte) ∧
    (v0.mode = .data ∧ (0xFF : Byte) ≠ v0.cfg.escByte) ∧
    (∃ v : View, v.mode = .command ∧ (0x0A : Byte) = v.cfg.termByte) ∧
    (∃ v : View, v.mode = .command ∧ (0x00 : Byte) ≠ v.cfg.termByte ∧ v.coff = v.cfg.C2 - 2 ∧
      v.coff < v.cfg.C2 - 1) ∧
    (∃ v : View, v.mode = .command ∧ (0x00 : Byte) ≠ v.cfg.termByte ∧ v.coff = v.cfg.C2 - 1) ∧
    ∃ j, agentOf j = .byteSource ∧ encode j = evWord 0b00#2 0x41 ∧ j.wellFormed v0.cfg = true ∧
      j.condition v0 = true :=
  ⟨by decide, by decide, ⟨{ v0 with mode := .command }, by decide⟩,
    ⟨{ v0 with mode := .command, coff := 6 }, by decide⟩,
    ⟨{ v0 with mode := .command, coff := 7 }, by decide⟩, .textPut 0x41, by decide⟩

/-- Each clause, at the first and last slot of its range. -/
theorem witness_TickWordNamesItsOperation :
    (v0.slot = 0 ∧ v0.empty = true) ∧
    (∃ v : View, v.slot = 0 ∧ v.empty = false ∧ v.oldest = some 0x41 ∧
      lookup v.cfg 0x41 = some (0x03, .letters) ∧ .letters = v.shift) ∧
    (∃ v : View, v.slot = 0 ∧ v.empty = false ∧ v.oldest = some 0x31 ∧
      lookup v.cfg 0x31 = some (0x17, .figures) ∧ .figures ≠ v.shift) ∧
    (∃ v : View, v.slot = 0 ∧ v.empty = false ∧ v.oldest = some 0x61 ∧ lookup v.cfg 0x61 = none) ∧
    (∃ v : View, v.slot.val = 1) ∧ (∃ v : View, v.slot.val = 5) ∧ (∃ v : View, v.slot.val = 6) :=
  ⟨by decide, ⟨{ v0 with empty := false, oldest := some 0x41 }, by decide⟩,
    ⟨{ v0 with empty := false, oldest := some 0x31 }, by decide⟩,
    ⟨{ v0 with empty := false, oldest := some 0x61 }, by decide⟩,
    ⟨{ v0 with slot := 1 }, by decide⟩, ⟨{ v0 with slot := 5 }, by decide⟩,
    ⟨{ v0 with slot := 6 }, by decide⟩⟩

/-- Each clause, at the first refused payload. -/
theorem witness_ReservedWordsAreRefused : State.reset.cfg.ok = true ∧
    (0x01 : Byte) ≠ 0x00#8 ∧ pushEvent (evWord 0b01#2 0x01) State.reset =
      { State.reset with input := evWord 0b01#2 0x01 :: [] } ∧
    pushEvent (evWord 0b10#2 0x01) State.reset = { State.reset with input := evWord 0b10#2 0x01 :: [] } ∧
    State.reset.cfg.C2 ≤ (0x08 : Byte).toNat ∧
    pushEvent (evWord 0b11#2 0x08) State.reset =
      { State.reset with input := evWord 0b11#2 0x08 :: [] } := by decide

theorem witness_InitializationSetsResetValues : Config.default.ok = true ∧
    (Config.standard .usTty 1 2 0).ok = false := by decide

theorem witness_ConfigurationCheckTestsTheConstraints :
    (Config.default.codeTable.map TableEntry.char).Nodup ∧
    ((Config.standard .usTty 1 2 0).codeTable.map TableEntry.char).Nodup ∧
    (Config.standard .usTty 1 2 0).ok = false := by decide

theorem witness_TablesListingACharacterTwiceAreRefused :
    ¬([⟨0x41, 0x03, .letters⟩, ⟨0x41, 0x04, .letters⟩].map TableEntry.char).Nodup := by decide

theorem witness_BadConfigurationIsRefused :
    (State.resetOf (Config.standard .ita2Intl 8 257 1)).cfg.ok = false := by decide

theorem witness_DefaultConfigurationsPassTheCheck : 2 ≤ 2 ∧ 2 ≤ 256 ∧ 256 ≤ 256 := by decide

/-- R77's own example of a control byte, and 0x24, which only US_TTY lists. -/
theorem witness_DefaultTableLeavesTheRestUnmapped : ∀ b ∈ [(0x00 : Byte), 0x24],
    ¬(0x41#8 ≤ b ∧ b ≤ 0x5A#8) ∧
    b ∉ [0x20#8, 0x0D#8, 0x0A#8, 0x2D#8, 0x3F#8, 0x3A#8, 0x28#8, 0x29#8, 0x2E#8, 0x2C#8, 0x2F#8] ∧
    ¬(0x30#8 ≤ b ∧ b ≤ 0x39#8) ∧ b ∉ [0x05#8, 0x07#8, 0x27#8, 0x3D#8, 0x2B#8] := by decide

theorem witness_InverseTableReturnsTheCharacter : Config.default.ok = true := by decide

/-- Each clause, at the last index inside and the first outside. -/
theorem witness_CellReadFollowsItsThreeCases : 8 ≥ size live .tbuf ∧
    (5 < size live .tbuf ∧ (cells live .tbuf).read 5 = none) ∧
    (7 < size live .tbuf ∧ (cells live .tbuf).read 7 = some 0x31) := by decide

theorem witness_CellWriteStoresOneByte : 7 < size live .cbuf ∧ 0 < size live .tbuf := by decide

theorem witness_CellWriteOutsideTheBufferFaults : 8 ≥ size live .cbuf := by decide

theorem witness_EnterCmdStartsACommand : live.mode = .data ∧ 0x5C = live.cfg.escByte := by decide

theorem witness_TextPutStoresAndAdvances : live.mode = .data ∧ 0x0A ≠ live.cfg.escByte ∧
    live.wr < live.cfg.C1 := by decide

theorem witness_CmdEndTerminatesAndRaisesReady : (cmdState Config.default 7).mode = .command ∧
    0x0A = (cmdState Config.default 7).cfg.termByte ∧
    (cmdState Config.default 7).coff < (cmdState Config.default 7).cfg.C2 := by decide

theorem witness_CmdPutStoresAndCounts : (cmdState Config.default 6).mode = .command ∧
    0x5C ≠ (cmdState Config.default 6).cfg.termByte ∧
    (cmdState Config.default 6).coff < (cmdState Config.default 6).cfg.C2 - 1 := by decide

theorem witness_CmdDropChangesNothing : (cmdState Config.default 7).mode = .command ∧
    0x5C ≠ (cmdState Config.default 7).cfg.termByte ∧
    (cmdState Config.default 7).coff ≥ (cmdState Config.default 7).cfg.C2 - 1 := by decide

theorem witness_StartEmptyBeginsAnIdleFrame : State.reset.slot = 0 ∧ State.reset.rd = State.reset.wr := by
  decide

theorem witness_StartDataSendsTheCharacter : live.slot = 0 ∧ live.rd ≠ live.wr ∧
    live.rd < live.cfg.C1 ∧ live.tbuf.read live.rd = some 0x41 ∧
    lookup live.cfg 0x41 = some (0x03, .letters) ∧ .letters = live.shift := by decide

theorem witness_StartShiftSendsTheShiftCode : liveShift.slot = 0 ∧ liveShift.rd ≠ liveShift.wr ∧
    liveShift.rd < liveShift.cfg.C1 ∧ liveShift.tbuf.read liveShift.rd = some 0x31 ∧
    lookup liveShift.cfg 0x31 = some (0x17, .figures) ∧ .figures ≠ liveShift.shift := by decide

theorem witness_StartNoCodeConsumesSilently : (textState 0x7E).slot = 0 ∧
    (textState 0x7E).rd ≠ (textState 0x7E).wr ∧ (textState 0x7E).rd < (textState 0x7E).cfg.C1 ∧
    (textState 0x7E).tbuf.read (textState 0x7E).rd = some 0x7E ∧
    lookup (textState 0x7E).cfg 0x7E = none := by decide

/-- Each clause, at the first and last data slot. -/
theorem witness_TickBitDrivesItsBit : 1 ≤ (frameState .noData 1 .mark).slot.val ∧
    (frameState .noData 1 .mark).pending = .noData ∧
    (frameState (.data 0x03) 5 .mark).slot.val ≤ 5 ∧
    (frameState (.data 0x03) 5 .mark).pending = .data 0x03 ∧
    (frameState (.shift 0x1B) 5 .mark).pending = .shift 0x1B := by decide

theorem witness_TickStopEndsTheFrame : (frameState (.data 0x03) 6 .space).slot = 6 := by decide

/-- Each clause, at the first index outside, an unwritten cell and the last written one. -/
theorem witness_HostReadFollowsItsThreeCases : (8 : Byte).toNat ≥ live.cfg.C2 ∧
    ((7 : Byte).toNat < live.cfg.C2 ∧ live.cbuf.read (7 : Byte).toNat = none) ∧
    (4 : Byte).toNat < live.cfg.C2 ∧ live.cbuf.read (4 : Byte).toNat = some 0x00 := by decide

/-- A wrong operand, and a wrong state. -/
theorem witness_OperationsOutsideTheirConditionFault : agentOf (.textPut 0x5C) ≠ .host ∧
    ((view live).oldest).isSome = true ∧ (Instr.textPut 0x5C).wellFormed live.cfg = false ∧
    agentOf .tickBit ≠ .host ∧ Instr.tickBit.condition (view live) = false := by decide

theorem witness_OperationsCompleteExactlyUnderTheirCondition :
    BlockInv live ∧ agentOf .tickStartData ≠ .host := ⟨live_inv, by decide⟩

theorem witness_TickOperationsFrame :
    agentOf .tickStartShift = .tickTimer ∧ ∃ t, exec .tickStartShift liveShift = .next t :=
  ⟨rfl, _, rfl⟩

theorem witness_ByteOperationsFrame :
    agentOf (.textPut 0x41) = .byteSource ∧ ∃ t, exec (.textPut 0x41) live = .next t := ⟨rfl, _, rfl⟩

theorem witness_HostOperationsFrame :
    agentOf (.hostRead 4) = .host ∧ ∃ t, exec (.hostRead 4) live = .next t := ⟨rfl, _, rfl⟩

theorem witness_ParametersAreNeverWritten : ∃ t, step { live with input := [evTick] } = .next t := ⟨_, rfl⟩

/-- Each clause: an operation that changes the field. -/
theorem witness_FieldsChangeOnlyByTheirWriters :
    after (exec .tickStartShift liveShift) (fun t => decide (t.shift ≠ liveShift.shift)) = some true ∧
    after (exec (.enterCmd 0x5C) live) (fun t => decide (t.mode ≠ live.mode)) = some true ∧
    after (exec .tickStartData live) (fun t => decide (t.rd ≠ live.rd ∧ t.pending ≠ live.pending ∧
      t.slot ≠ live.slot ∧ t.line ≠ live.line ∧ t.period ≠ live.period)) = some true ∧
    after (exec (.textPut 0x41) live) (fun t => decide (t.wr ≠ live.wr)) = some true ∧
    after (exec (.cmdPut 0x41) (cmdState cfg4 2)) (fun t => decide (t.coff ≠ 2)) = some true ∧
    after (exec (.cmdEnd 0x0A) (cmdState cfg4 2)) (fun t => t.ready) = some true ∧
    after (exec .hostAck live) (fun t => t.ready) = some false := by decide

theorem witness_SlotsFollowTheirCycle :
    agentOf .tickStop = .tickTimer ∧ ∃ t, exec .tickStop (frameState .noData 6 .mark) = .next t :=
  ⟨rfl, _, rfl⟩

theorem witness_TraceRecordsTicksAndReads : (∃ t, exec .tickStartData live = .next t) ∧
    (∃ t, exec (.hostRead 0) live = .next t) ∧ ∃ t, exec .hostAck live = .next t :=
  ⟨⟨_, rfl⟩, ⟨_, rfl⟩, _, rfl⟩

theorem witness_StepRunsTheDecodedOperation :
    live.cfg.ok = true ∧ ({ live with input := [evTick] } : State).input = evTick :: [] ∧
      decode (view live) evTick = .ok .tickStartData := by decide

theorem witness_NothingButAnEventChangesTheState : live.cfg.ok = true ∧ live.input = [] := by decide

/-- Each clause: a cursor outside the buffer, and a cell never written. -/
theorem witness_TickOnUnreadableTextFaults : live.cfg.ok = true ∧ live.slot = 0 ∧
    ({ live with rd := 8 } : State).rd ≠ live.wr ∧ ({ live with rd := 8 } : State).rd ≥ live.cfg.C1 ∧
    ({ live with rd := 5 } : State).rd ≠ live.wr ∧ ({ live with rd := 5 } : State).rd < live.cfg.C1 ∧
    live.tbuf.read 5 = none := by decide

/-- Each clause: a buffer with `C1 - 1` unread characters, and one with room. -/
theorem witness_PushCountsModuloTheCapacity :
    (State.reset.rd < State.reset.cfg.C1 ∧ unread { State.reset with wr := 7 } = State.reset.cfg.C1 - 1 ∧
      after (exec (.textPut 0x41) { State.reset with wr := 7 }) textEmpty = some true) ∧
    live.rd < live.cfg.C1 ∧ unread live < live.cfg.C1 - 1 ∧
      after (exec (.textPut 0x41) live) unread = some 4 := by decide

theorem witness_PushedTextKeepsItsOrder :
    BlockInv { live with input := evBytes [0x42, 0x43, 0x44, 0x45] ++ [evTick] } ∧ live.mode = .data ∧
    (∀ b ∈ [(0x42 : Byte), 0x43, 0x44, 0x45], b ≠ live.cfg.escByte) ∧
    unread live + 4 ≤ live.cfg.C1 - 1 := ⟨live_inv.withInput _, by decide⟩

theorem witness_FramesTakeTheOldestCharacter : BlockInv live ∧
    (∃ t, exec .tickStartData live = .next t) ∧ BlockInv liveShift ∧
    ∃ t, exec .tickStartShift liveShift = .next t :=
  ⟨live_inv, ⟨_, rfl⟩, liveShift_inv, _, rfl⟩

theorem witness_DataCodesMatchTheShiftState : agentOf .tickStartData = .tickTimer ∧ live.slot = 0 ∧
    after (exec .tickStartData live) (fun t => t.pending) = some (.data 0x03) := by decide

theorem witness_SevenTicksShowOneFrame : BlockInv { live with input := evFrame ++ [evAck] } ∧
    live.slot = 0 ∧ State.reset.rd = State.reset.wr := ⟨live_inv.withInput _, by decide⟩

theorem witness_OneShiftFrameThenTheData : BlockInv { liveShift with input := evTicks 8 ++ [] } ∧
    liveShift.slot = 0 ∧ liveShift.rd ≠ liveShift.wr ∧
    liveShift.tbuf.read liveShift.rd = some 0x31 ∧
    lookup liveShift.cfg 0x31 = some (0x17, .figures) ∧ .figures ≠ liveShift.shift :=
  ⟨liveShift_inv.withInput _, by decide⟩

theorem witness_TicksIgnoreTheCommandSide :
    ({ live with input := [evTick] } : State).input = evTick :: [] ∧
      ∃ t, step { live with input := [evTick] } = .next t := ⟨rfl, _, rfl⟩

theorem witness_BytesIgnoreTheTransmitter :
    ({ live with input := [evByte 0x41] } : State).input = evByte 0x41 :: [] ∧
      ∃ t, step { live with input := [evByte 0x41] } = .next t := ⟨rfl, _, rfl⟩

/-- Escape, two bytes, terminator, and a later tick. -/
def commandEvents : List EventWord :=
  evByte live.cfg.escByte :: evBytes [0x2B, 0x47] ++ evByte live.cfg.termByte :: [evTick]

theorem witness_CommandStringIsTheTruncatedCommand :
    BlockInv { live with input := commandEvents } ∧ live.mode = .data ∧
    ∀ b ∈ [(0x2B : Byte), 0x47], b ≠ live.cfg.termByte := ⟨live_inv.withInput _, by decide⟩

theorem witness_TickEventsAlwaysComplete : BlockInv { live with input := evTick :: [] } := live_inv.withInput _

theorem witness_ByteEventsAlwaysComplete : BlockInv { live with input := evByte 0x5C :: [] } :=
  live_inv.withInput _

theorem witness_OnlyUnwrittenReadsFault : BlockInv { live with input := [evRead 5] } ∧
    step { live with input := [evRead 5] } = .fault .readUnwritten := ⟨live_inv.withInput _, rfl⟩

theorem witness_InitializationEstablishesTheInvariants : ∃ s, boot Config.default = .next s := ⟨_, rfl⟩

theorem witness_StepKeepsTheInvariants : BlockInv { live with input := [evTick] } ∧
    ∃ t, step { live with input := [evTick] } = .next t := ⟨live_inv.withInput _, _, rfl⟩

theorem witness_ReachableStatesHaveTheInvariants : Reachable (sendEvent evTick State.reset) :=
  .send evTick (.boot (c := Config.default) rfl)

theorem witness_PendingEncodingIsFaithful : pendingCode (.data 0x03) = some 0x03 := by decide

/-! ## A fair run: one byte, then ticks for ever -/

/-- The events of the run. -/
def fairEvents : Nat → EventWord
  | 0 => evByte 0x41
  | _ + 1 => evTick

/-- The states of the run. -/
def fairRun : Nat → State
  | 0 => State.reset
  | n + 1 =>
    match step (sendEvent (fairEvents n) (fairRun n)) with
    | .next t => t
    | .fault _ => fairRun n
    | .refused _ => fairRun n

/-- When each event of the run is taken. -/
def fairTime : Nat → Nat
  | 0 => 0
  | n + 1 => fairTime n +
    if fairEvents n = evTick then Config.default.twiceInterval (fairRun (n + 1)).period else 0

/-- The one byte the source sends. -/
def fairSent : Nat → Option Byte
  | 0 => some 0x41
  | _ + 1 => none

/-- A tick of an empty buffer leaves it empty. -/
theorem tick_of_empty {s : State} (hc : s.cfg.ok = true) (hi : s.input = []) (he : s.rd = s.wr) :
    ∃ t, step (sendEvent evTick s) = .next t ∧ t.cfg.ok = true ∧ t.input = [] ∧ t.rd = t.wr := by
  have run {i : Instr} {t : State} (hd : onTick (view s) = .ok i) (hf : Effect s i t) :=
    step_sendEvent_of hc hi ((decode_evTick _).trans hd) hf
  by_cases h0 : s.slot = 0
  · exact ⟨_, run (by simp [onTick, h0, textEmpty, he]) (.startEmpty h0 he), hc, hi, he⟩
  · by_cases h6 : s.slot = 6
    · exact ⟨_, run (by simp [onTick, h6]) (.stop h6), hc, hi, he⟩
    · have hv : 1 ≤ s.slot.val ∧ s.slot.val ≤ 5 := by
        have := s.slot.isLt
        rw [Fin.ext_iff] at h0 h6
        have e0 : ((0 : Slot).val) = 0 := rfl
        have e6 : ((6 : Slot).val) = 6 := rfl
        omega
      exact ⟨_, run (by simp [onTick, h0, h6]) (.bit hv.1 hv.2), hc, hi, he⟩

theorem fairRun_succ {n : Nat} {t : State} (h : step (sendEvent (fairEvents n) (fairRun n)) = .next t) :
    fairRun (n + 1) = t := by
  rw [fairRun, h]

/-- From the third state on the buffer is empty. -/
theorem fairRun_empty (n : Nat) : (fairRun (n + 2)).cfg.ok = true ∧ (fairRun (n + 2)).input = [] ∧
    (fairRun (n + 2)).rd = (fairRun (n + 2)).wr := by
  induction n with
  | zero => decide
  | succ n ih =>
    obtain ⟨t, ht, h⟩ := tick_of_empty ih.1 ih.2.1 ih.2.2
    rw [fairRun_succ ht]
    exact h

theorem fairRun_isRun : IsRun Config.default fairEvents fairRun := by
  refine ⟨rfl, fun n => ?_⟩
  match n with
  | 0 => rfl
  | 1 => rfl
  | n + 2 =>
    obtain ⟨h1, h2, h3⟩ := fairRun_empty n
    obtain ⟨t, ht, -⟩ := tick_of_empty h1 h2 h3
    have hs : step (sendEvent (fairEvents (n + 2)) (fairRun (n + 2))) = .next t := ht
    rw [hs, fairRun_succ hs]

theorem fairEvents_ticks : TicksKeepComing fairEvents := fun n => ⟨n + 1, Nat.le_succ n, rfl⟩

theorem fairTime_period : KeepsPeriod Config.default fairTime fairEvents fairRun := by
  refine ⟨fun n => Nat.le_add_right .., fun n m hnm hn _ hq => ?_⟩
  obtain rfl : m = n + 1 := by
    by_contra hm
    exact hq (n + 1) (Nat.lt_succ_self n) (by omega) rfl
  rw [fairTime, if_pos hn]

theorem fairEvents_delivered (n : Nat) : deliveredBytes fairEvents (n + 1) = [0x41] := by
  induction n with
  | zero => decide
  | succ n ih =>
    rw [deliveredBytes, ih]
    change [0x41#8] ++ (if evKind evTick = 0b00#2 then [evPayload evTick] else []) = [0x41#8]
    decide

theorem fairSent_delivered : DeliversSentBytes fairSent fairEvents := by
  constructor
  · intro n k b h
    cases n with
    | zero => cases h
    | succ n =>
      rw [fairEvents_delivered] at h
      cases k with
      | zero => exact h
      | succ k => cases h
  · intro k b h
    cases k with
    | zero => exact ⟨1, h⟩
    | succ k => cases h

/-- The whole environment of R120 at once. -/
theorem test_fairRun : FairRun Config.default fairSent fairTime fairEvents fairRun :=
  ⟨fairRun_isRun, fairRun_isRun.lawful, fairEvents_ticks, fairTime_period, fairSent_delivered⟩

/-- Each clause: the unread byte before the first tick, the byte that is sent, and the ticks 1 and 8,
which start two frames with no frame start between them. -/
theorem witness_DutiesKeepTheBlockMoving : IsRun Config.default fairEvents fairRun ∧
    (TicksKeepComing fairEvents ∧ (fairRun 1).rd ≠ (fairRun 1).wr) ∧
    (DeliversSentBytes fairSent fairEvents ∧ fairSent 0 = some 0x41) ∧
    (KeepsPeriod Config.default fairTime fairEvents fairRun ∧ (fairRun 1).slot = 0 ∧
      (fairRun 8).slot = 0 ∧ ∀ k < 8, 1 < k → (fairRun k).slot ≠ 0) :=
  ⟨fairRun_isRun, ⟨fairEvents_ticks, by decide⟩, ⟨fairSent_delivered, rfl⟩, fairTime_period, by decide⟩

end Sys2Proof.Tests
end

section

namespace Sys2Proof.Machine

/-- Settles O36: a step keeps its state where no event has come, and otherwise takes the event off
the stream, which leaves the parameters alone, and runs an operation, which keeps them too (R21). -/
theorem parametersAreNeverWritten : Obligations.ParametersAreNeverWritten := by
  intro s t h
  obtain ⟨-, ⟨-, rfl⟩ | ⟨_, _, _, -, -, hEffect⟩⟩ := step_next h
  · rfl
  · exact hEffect.cfg

end Sys2Proof.Machine

end

section

namespace Sys2Proof.Machine

/-! What replacing the cells of one memory does to either memory and to the rest of the state. -/

@[simp] theorem cells_setCells_same (s : State) (m : Memory) (sp : Space) :
    cells (setCells s m sp) sp = m := by
  cases sp <;> rfl

theorem cells_setCells_of_ne (s : State) (m : Memory) {sp sp' : Space} (h : sp' ≠ sp) :
    cells (setCells s m sp) sp' = cells s sp' := by
  match sp, sp' with
  | .tbuf, .cbuf => rfl
  | .cbuf, .tbuf => rfl
  | .tbuf, .tbuf => exact absurd rfl h
  | .cbuf, .cbuf => exact absurd rfl h

theorem setCells_frame (s : State) (m : Memory) (sp : Space) :
    { setCells s m sp with tbuf := s.tbuf, cbuf := s.cbuf } = s := by
  cases sp <;> rfl

/-- Settles O16: the answer of a write inside the buffer is known (R50), so what is left is to read it
back: in the written memory at the index and beside it, and in the other memory. -/
theorem cellWriteStoresOneByte : Obligations.CellWriteStoresOneByte := by
  intro s sp i b hi
  refine ⟨_, memWrite_ok.mpr ⟨hi, rfl⟩, ?_, ?_, setCells_frame ..⟩
  · rw [cells_setCells_same, Memory.read_write_same]
  · intro sp' a hother
    by_cases hsp : sp' = sp
    · subst hsp
      have ha : a ≠ i := fun ha => hother ⟨rfl, ha⟩
      rw [cells_setCells_same, Memory.read_write_other _ _ ha]
    · rw [cells_setCells_of_ne s _ hsp]

end Sys2Proof.Machine

end

section

namespace Sys2Proof

/-! The word of an operation, read back in a state that selects the operation, and what the oldest
character makes of the codec. -/

/-- The rows of R79, R80 and R81 at once: where an operation's operand is well-formed and its condition
holds, its word decodes to it. So two operations with one word never have their conditions together. -/
theorem decode_encode_of_condition {v : View} {i : Instr} (hw : i.wellFormed v.cfg = true)
    (hc : i.condition v = true) : decode v (encode i) = .ok i := by
  cases i with
  | enterCmd b =>
    rw [wellFormed_enterCmd] at hw
    rw [condition_enterCmd] at hc
    simp [encode, onByte, hw, hc]
  | textPut b =>
    rw [wellFormed_textPut] at hw
    rw [condition_textPut] at hc
    simp [encode, onByte, hw, hc]
  | cmdEnd b =>
    rw [wellFormed_cmdEnd] at hw
    rw [condition_cmdEnd] at hc
    simp [encode, onByte, hw, hc]
  | cmdPut b =>
    rw [wellFormed_cmdPut] at hw
    obtain ⟨hmode, hcoff⟩ := condition_cmdPut.mp hc
    simp [encode, onByte, hw, hmode, hcoff]
  | cmdDrop b =>
    rw [wellFormed_cmdDrop] at hw
    obtain ⟨hmode, hcoff⟩ := condition_cmdDrop.mp hc
    simp [encode, onByte, hw, hmode, Nat.not_lt.mpr hcoff]
  | tickStartEmpty =>
    obtain ⟨hslot, hempty⟩ := condition_tickStartEmpty.mp hc
    simp [encode, onTick, hslot, hempty]
  | tickStartData =>
    obtain ⟨⟨hslot, hempty⟩, hcodec⟩ := condition_tickStartData.mp hc
    simp [encode, onTick, hslot, hempty, hcodec]
  | tickStartShift =>
    obtain ⟨⟨hslot, hempty⟩, hcodec⟩ := condition_tickStartShift.mp hc
    simp [encode, onTick, hslot, hempty, hcodec]
  | tickStartNoCode =>
    obtain ⟨⟨hslot, hempty⟩, hcodec⟩ := condition_tickStartNoCode.mp hc
    simp [encode, onTick, hslot, hempty, hcodec]
  | tickBit =>
    rw [condition_tickBit] at hc
    have h0 : v.slot ≠ 0 := fun h => by simp [h] at hc
    have h6 : v.slot ≠ 6 := fun h => by simp [h] at hc
    simp [encode, onTick, h0, h6]
  | tickStop =>
    rw [condition_tickStop] at hc
    simp [encode, onTick, hc]
  | hostAck => exact decode_evAck v
  | hostRead k => exact decode_evRead v (wellFormed_hostRead.mp hw)

/-- A mapped oldest character is data or asks for a shift, as its required shift decides (R96, R97). -/
theorem codec_of_lookup {v : View} {b : Byte} {c : Code} {q : Shift} (hb : v.oldest = some b)
    (hl : lookup v.cfg b = some (c, q)) :
    v.codec = some (if q = v.shift then .data else .shift) := by
  simp [View.codec, codecCase, hb, hl]

/-- An oldest character outside the Code Table has no code (R95). -/
theorem codec_of_lookup_none {v : View} {b : Byte} (hb : v.oldest = some b)
    (hl : lookup v.cfg b = none) : v.codec = some .noCode := by
  simp [View.codec, codecCase, hb, hl]

/-- Settles O4: in each row the named operation has that row's condition, so its word decodes to it
(R79). The decoder is a function, which leaves no other operation with that word and a condition that
holds; and it answers every BYTE word. -/
theorem byteWordsNameTheirOperation : Obligations.ByteWordsNameTheirOperation := by
  intro v b
  refine ⟨fun hm hb => ?_, fun hm hb => ?_, fun hm hb => ?_, fun hm hb hc => ?_, fun hm hb hc => ?_,
    onByte v b, decode_evByte v b, fun j _ hj hw hc => ?_⟩
  · exact decode_encode_of_condition (i := .enterCmd b) (wellFormed_enterCmd.mpr hb)
      (condition_enterCmd.mpr hm)
  · exact decode_encode_of_condition (i := .textPut b) (wellFormed_textPut.mpr hb)
      (condition_textPut.mpr hm)
  · exact decode_encode_of_condition (i := .cmdEnd b) (wellFormed_cmdEnd.mpr hb)
      (condition_cmdEnd.mpr hm)
  · exact decode_encode_of_condition (i := .cmdPut b) (wellFormed_cmdPut.mpr hb)
      (condition_cmdPut.mpr ⟨hm, hc⟩)
  · exact decode_encode_of_condition (i := .cmdDrop b) (wellFormed_cmdDrop.mpr hb)
      (condition_cmdDrop.mpr ⟨hm, hc⟩)
  · have hdecode : decode v (evWord 0b00#2 b) = .ok j := hj ▸ decode_encode_of_condition hw hc
    exact Except.ok.inj (hdecode.symm.trans (decode_evByte v b))

/-- Settles O5: in each row the named operation has that row's condition, where at slot 0 of a nonempty
buffer the Code Table's answer for the oldest character is the codec's outcome (R80). -/
theorem tickWordNamesItsOperation : Obligations.TickWordNamesItsOperation := by
  intro v
  refine ⟨fun hs he => ?_, fun b c q hs he hb hl hq => ?_, fun b c q hs he hb hl hq => ?_,
    fun b hs he hb hl => ?_, fun h1 h5 => ?_, fun h6 => ?_⟩
  · exact decode_encode_of_condition (i := .tickStartEmpty) rfl (condition_tickStartEmpty.mpr ⟨hs, he⟩)
  · have hcodec : v.codec = some .data := by rw [codec_of_lookup hb hl, if_pos hq]
    exact decode_encode_of_condition (i := .tickStartData) rfl
      (condition_tickStartData.mpr ⟨⟨hs, he⟩, hcodec⟩)
  · have hcodec : v.codec = some .shift := by rw [codec_of_lookup hb hl, if_neg hq]
    exact decode_encode_of_condition (i := .tickStartShift) rfl
      (condition_tickStartShift.mpr ⟨⟨hs, he⟩, hcodec⟩)
  · exact decode_encode_of_condition (i := .tickStartNoCode) rfl
      (condition_tickStartNoCode.mpr ⟨⟨hs, he⟩, codec_of_lookup_none hb hl⟩)
  · exact decode_encode_of_condition (i := .tickBit) rfl (condition_tickBit.mpr ⟨h1, h5⟩)
  · exact decode_encode_of_condition (i := .tickStop) rfl (condition_tickStop.mpr (Fin.ext h6))

end Sys2Proof

end

section

namespace Sys2Proof.Machine

/-! The five operations of a BYTE event. Under its condition each answers the next state `Effect` gives
it; where one cell is written, the laws of the cells say what the written memory reads as. -/

/-- Settles O18: R88's condition holds, and its next state writes the mode and the offset alone. -/
theorem enterCmdStartsACommand : Obligations.EnterCmdStartsACommand := by
  intro s b hmode hesc
  subst hesc
  exact exec_next.mpr (.enterCmd hmode)

/-- Settles O19: R89 stores at the write cursor whatever the fill, so only the written cell of TBUF
reads anew. -/
theorem textPutStoresAndAdvances : Obligations.TextPutStoresAndAdvances := by
  intro s b hmode hesc hwr
  have heffect := Effect.textPut hmode hesc hwr
  exact ⟨_, exec_next.mpr heffect, rfl, Memory.read_write_same _ _ _,
    fun _ hother => Memory.read_write_other _ _ hother⟩

/-- Settles O20: R90 stores the NUL at the offset before the offset is cleared, so it is the old offset's
cell of CBUF that reads anew. -/
theorem cmdEndTerminatesAndRaisesReady : Obligations.CmdEndTerminatesAndRaisesReady := by
  intro s b hmode hterm hcoff
  subst hterm
  have heffect := Effect.cmdEnd hmode hcoff
  exact ⟨_, exec_next.mpr heffect, rfl, Memory.read_write_same _ _ _,
    fun _ hother => Memory.read_write_other _ _ hother⟩

/-- Settles O21: R91 asks nothing of the byte but that it is not TERM_BYTE, so ESC_BYTE is stored like
any other; only the written cell of CBUF reads anew. -/
theorem cmdPutStoresAndCounts : Obligations.CmdPutStoresAndCounts := by
  intro s b hmode hterm hcoff
  have heffect := Effect.cmdPut hmode hterm hcoff
  exact ⟨_, exec_next.mpr heffect, rfl, Memory.read_write_same _ _ _,
    fun _ hother => Memory.read_write_other _ _ hother⟩

/-- Settles O22: R92's condition holds, and its next state is the state it started from. -/
theorem cmdDropChangesNothing : Obligations.CmdDropChangesNothing := by
  intro s b hmode hterm hcoff
  exact exec_next.mpr (.cmdDrop hmode hterm hcoff)

end Sys2Proof.Machine

end

section

namespace Sys2Proof.Machine

/-! The operations of a TICK event: the next state of a start slot and of the stop slot, and why every
tick finds one. -/

/-- Settles O24: a character of the current shift meets R103's condition; the next state starts a data
frame over the advanced buffer, and `Data(c)` drives the line to SPACE. -/
theorem startDataSendsTheCharacter : Obligations.StartDataSendsTheCharacter := by
  intro s b c q hslot hne hrd hread hlookup hq
  subst hq
  exact ⟨_, exec_next.mpr (.startData hslot hne hrd hread hlookup), rfl⟩

/-- Settles O25: a character of the other shift meets R104's condition; the next state starts a shift
frame over the buffer as it was, so that `rd` stays. -/
theorem startShiftSendsTheShiftCode : Obligations.StartShiftSendsTheShiftCode := by
  intro s b c q hslot hne hrd hread hlookup hq
  exact ⟨_, exec_next.mpr (.startShift hslot hne hrd hread hlookup hq), rfl⟩

/-- Settles O28: slot 6 is R107's whole condition, and its next state is the stop slot's, which does not
write the period. -/
theorem tickStopEndsTheFrame : Obligations.TickStopEndsTheFrame := by
  intro s hslot
  exact ⟨_, exec_next.mpr (.stop hslot), rfl⟩

/-- Cursors inside the ring that differ leave at least one unread character (R51, R53). -/
theorem unread_pos {s : State} (hrd : s.rd < s.cfg.C1) (hwr : s.wr < s.cfg.C1) (hne : s.rd ≠ s.wr) :
    0 < unread s := by
  unfold unread
  rcases Nat.lt_or_gt_of_ne hne with hlt | hgt
  · have hsum : s.wr + (s.cfg.C1 - s.rd) = (s.wr - s.rd) + s.cfg.C1 := by omega
    rw [hsum, Nat.add_mod_right, Nat.mod_eq_of_lt (by omega)]
    omega
  · rw [Nat.mod_eq_of_lt (by omega)]
    omega

/-- In a nonempty buffer the cell at `rd` is the first of the window that R42 says is written. -/
theorem BlockInv.oldest_written {s : State} (h : BlockInv s) (hne : s.rd ≠ s.wr) :
    ∃ b, s.tbuf.read s.rd = some b := by
  have hfirst := h.window_written 0 (unread_pos h.rd_lt h.wr_lt hne)
  rw [Nat.add_zero, Nat.mod_eq_of_lt h.rd_lt] at hfirst
  exact Option.isSome_iff_exists.mp hfirst

/-- The start slot of a readable character: the Code Table's answer decides which of the three
operations the TICK word names (R80), and that operation's condition holds (R103, R104, R105). -/
theorem tick_effect_of_character {s : State} {b : Byte} (hslot : s.slot = 0) (hne : s.rd ≠ s.wr)
    (hrd : s.rd < s.cfg.C1) (hread : s.tbuf.read s.rd = some b) :
    ∃ i t, decode (view s) evTick = .ok i ∧ Effect s i t := by
  obtain ⟨-, hdata, hshift, hnoCode, -, -⟩ := tickWordNamesItsOperation (view s)
  have hempty : (view s).empty = false := beq_eq_false_iff_ne.mpr hne
  have holdest : (view s).oldest = some b := view_oldest.mpr ⟨hrd, hread⟩
  cases hlookup : lookup s.cfg b with
  | none =>
    exact ⟨_, _, hnoCode b hslot hempty holdest hlookup, .startNoCode hslot hne hrd hread hlookup⟩
  | some entry =>
    obtain ⟨c, q⟩ := entry
    by_cases hq : q = s.shift
    · exact ⟨_, _, hdata b c q hslot hempty holdest hlookup hq,
        .startData hslot hne hrd hread (hq ▸ hlookup)⟩
    · exact ⟨_, _, hshift b c q hslot hempty holdest hlookup hq,
        .startShift hslot hne hrd hread hlookup hq⟩

/-- Under the invariants the TICK word names an operation whose condition holds: at slot 0 by the state
of the buffer, at the data slots and the stop slot by the slot alone (R80, R108). -/
theorem BlockInv.tick_effect {s : State} (h : BlockInv s) :
    ∃ i t, decode (view s) evTick = .ok i ∧ Effect s i t := by
  obtain ⟨hempty, -, -, -, hbit, hstop⟩ := tickWordNamesItsOperation (view s)
  by_cases hstart : s.slot = 0
  · by_cases hcursors : s.rd = s.wr
    · exact ⟨_, _, hempty hstart (beq_iff_eq.mpr hcursors), .startEmpty hstart hcursors⟩
    · obtain ⟨b, hread⟩ := h.oldest_written hcursors
      exact tick_effect_of_character hstart hcursors h.rd_lt hread
  · by_cases hlast : s.slot = 6
    · exact ⟨_, _, hstop (congrArg Fin.val hlast), .stop hlast⟩
    · have hfirst : 1 ≤ s.slot.val := Nat.pos_of_ne_zero (Fin.val_ne_of_ne hstart)
      have hbefore : s.slot.val ≤ 5 := by
        have hne : s.slot.val ≠ 6 := Fin.val_ne_of_ne hlast
        omega
      exact ⟨_, _, hbit hfirst hbefore, .bit hfirst hbefore⟩

/-- Settles O53: the invariants do not speak of the event stream, so with the TICK word taken it still
names an operation that answers, and no operation touches the events behind it (R110). -/
theorem tickEventsAlwaysComplete : Obligations.TickEventsAlwaysComplete := by
  intro s rest hinv hinput
  obtain ⟨i, t, hdecode, heffect⟩ := (hinv.withInput rest).tick_effect
  exact ⟨t, step_of_effect hinv.config hinput hdecode heffect, heffect.input⟩

end Sys2Proof.Machine

end

section

namespace Sys2Proof

/-! The decoder read the other way: whatever operation it answers has the word it was read from, an
operand of its row and a condition that holds. -/

/-- The row of R79 that a received byte selects is one whose word, operand and condition fit. -/
theorem onByte_fits (v : View) (b : Byte) :
    encode (onByte v b) = evByte b ∧ (onByte v b).wellFormed v.cfg = true ∧
      (onByte v b).condition v = true := by
  unfold onByte
  cases hmode : v.mode with
  | data =>
    by_cases hesc : b = v.cfg.escByte
    · simp [hesc, encode, hmode]
    · simp [hesc, encode, hmode]
  | command =>
    by_cases hterm : b = v.cfg.termByte
    · simp [hterm, encode, hmode]
    · by_cases hcoff : v.coff < v.cfg.C2 - 1
      · simp [hterm, hcoff, encode, hmode]
      · simp [hterm, hcoff, encode, hmode, Nat.le_of_not_lt hcoff]

/-- The operation a nonempty buffer's codec outcome selects at slot 0 (R80). -/
def startOf : CodecCase → Instr
  | .noCode => .tickStartNoCode
  | .data => .tickStartData
  | .shift => .tickStartShift

theorem onTick_of_codec {v : View} {k : CodecCase} (hslot : v.slot = 0) (hempty : v.empty = false)
    (hcodec : v.codec = some k) : onTick v = .ok (startOf k) := by
  cases k <;> simp [onTick, hslot, hempty, hcodec, startOf]

/-- The row of R80 that a tick selects is one whose word and condition fit; no tick has an operand. -/
theorem onTick_fits {v : View} {i : Instr} (h : onTick v = .ok i) :
    encode i = evTick ∧ i.wellFormed v.cfg = true ∧ i.condition v = true := by
  by_cases hstart : v.slot = 0
  · cases hempty : v.empty with
    | true =>
      obtain rfl : Instr.tickStartEmpty = i := by simpa [onTick, hstart, hempty] using h
      exact ⟨rfl, rfl, condition_tickStartEmpty.mpr ⟨hstart, hempty⟩⟩
    | false =>
      cases hcodec : v.codec with
      | none => simp [onTick, hstart, hempty, hcodec] at h
      | some k =>
        have hstartOf := onTick_of_codec hstart hempty hcodec
        obtain rfl : startOf k = i := Except.ok.inj (hstartOf.symm.trans h)
        cases k with
        | noCode => exact ⟨rfl, rfl, condition_tickStartNoCode.mpr ⟨⟨hstart, hempty⟩, hcodec⟩⟩
        | data => exact ⟨rfl, rfl, condition_tickStartData.mpr ⟨⟨hstart, hempty⟩, hcodec⟩⟩
        | shift => exact ⟨rfl, rfl, condition_tickStartShift.mpr ⟨⟨hstart, hempty⟩, hcodec⟩⟩
  · by_cases hlast : v.slot = 6
    · obtain rfl : Instr.tickStop = i := by simpa [onTick, hlast] using h
      exact ⟨rfl, rfl, condition_tickStop.mpr hlast⟩
    · obtain rfl : Instr.tickBit = i := by simpa [onTick, hstart, hlast] using h
      refine ⟨rfl, rfl, condition_tickBit.mpr ?_⟩
      have hfirst : v.slot.val ≠ 0 := Fin.val_ne_of_ne hstart
      have hbefore : v.slot.val ≠ 6 := Fin.val_ne_of_ne hlast
      omega

/-- Settles O2: an answer comes from a BYTE word, the TICK word, the HOST_ACK word or a HOST_READ word
inside the Command Buffer; in each, the operation selected is one whose row fits (R78 to R83). -/
theorem encodeOfDecode : Obligations.EncodeOfDecode := by
  intro v ev i h
  obtain ⟨b, rfl, rfl⟩ | ⟨rfl, htick⟩ | ⟨rfl, rfl⟩ | ⟨k, rfl, hk, rfl⟩ := decode_ok h
  · exact onByte_fits v b
  · exact onTick_fits htick
  · exact ⟨rfl, rfl, rfl⟩
  · exact ⟨rfl, wellFormed_hostRead.mpr hk, rfl⟩

/-- Settles O1: `decode_encode_of_condition` has the rows of R79, R80 and R81 one by one, with the operand
read back. -/
theorem decodeOfEncode : Obligations.DecodeOfEncode := by
  intro v i hw hc
  exact decode_encode_of_condition hw hc

/-- Settles O3: thirteen closed words, each decoded by evaluation. -/
theorem sampleWordsDecode : Obligations.SampleWordsDecode := by
  unfold Obligations.SampleWordsDecode
  decide

/-- A word the decoder refuses without a look at the state stops the step with that refusal (R82,
R128). -/
theorem step_of_decodeWord_error {s : Machine.State} {ev : EventWord} {rest : List EventWord}
    {r : Reject} (hc : s.cfg.ok = true) (hi : s.input = ev :: rest) (h : decodeWord s.cfg.C2 ev = .error r) :
    Machine.step s = Machine.stop { s with input := rest } r := by
  have hd : decode (Machine.view s) ev = .error r := by simp [decode, h]
  rw [Machine.step_cons hc hi, hd]

/-- Settles O6: the three kinds of word that R82 reserves are refused by the word alone, before any
read (R128). -/
theorem reservedWordsAreRefused : Obligations.ReservedWordsAreRefused := by
  intro s p rest hc
  refine ⟨fun hp hi => ?_, fun hp hi => ?_, fun hp hi => ?_⟩
  · exact step_of_decodeWord_error (r := .reservedTickPayload) hc hi
      (by simp [decodeWord, hp])
  · exact step_of_decodeWord_error (r := .reservedAckPayload) hc hi
      (by simp [decodeWord, hp])
  · exact step_of_decodeWord_error (r := .readIndexOutOfRange) hc hi
      (by simp [decodeWord, Nat.not_lt.mpr hp])

end Sys2Proof

end

section

namespace Sys2Proof.Machine

/-! The Text Ring Buffer (R51 to R56): the unread count and the unread text after a push and after an
advance. -/

/-- The state after TextPush (R52). -/
def pushText (b : Byte) (s : State) : State :=
  { s with tbuf := s.tbuf.write s.wr b, wr := (s.wr + 1) % s.cfg.C1 }

/-- It is the next state of TEXT_PUT (R89). -/
theorem effect_pushText {b : Byte} {s : State} (hmode : s.mode = .data) (hesc : b ≠ s.cfg.escByte)
    (hwr : s.wr < s.cfg.C1) : Effect s (.textPut b) (pushText b s) :=
  .textPut hmode hesc hwr

/-- The unread count without a modulus (R53). -/
theorem unread_eq {s : State} (hrd : s.rd < s.cfg.C1) (hwr : s.wr < s.cfg.C1) :
    unread s = if s.rd ≤ s.wr then s.wr - s.rd else s.wr + s.cfg.C1 - s.rd := by
  unfold unread
  split
  · have hsum : s.wr + (s.cfg.C1 - s.rd) = (s.wr - s.rd) + s.cfg.C1 := by omega
    rw [hsum, Nat.add_mod_right, Nat.mod_eq_of_lt (by omega)]
  · rw [Nat.mod_eq_of_lt (by omega)]
    omega

theorem unread_lt {s : State} (hrd : s.rd < s.cfg.C1) : unread s < s.cfg.C1 :=
  Nat.mod_lt _ (Nat.zero_lt_of_lt hrd)

/-- The buffer reads as empty exactly with no unread character (R51, R53). -/
theorem textEmpty_iff {s : State} (hrd : s.rd < s.cfg.C1) (hwr : s.wr < s.cfg.C1) :
    textEmpty s = true ↔ unread s = 0 := by
  rw [textEmpty, beq_iff_eq, unread_eq hrd hwr]
  split <;> omega

/-- The write cursor stands behind the unread characters. -/
theorem cursor_behind_unread {s : State} (hrd : s.rd < s.cfg.C1) (hwr : s.wr < s.cfg.C1) :
    (s.rd + unread s) % s.cfg.C1 = s.wr := by
  have hsum : s.rd + (s.wr + (s.cfg.C1 - s.rd)) = s.wr + s.cfg.C1 := by omega
  rw [unread, Nat.add_mod_mod, hsum, Nat.add_mod_right, Nat.mod_eq_of_lt hwr]

/-- No unread character stands at the write cursor. -/
theorem unread_cell_ne_wr {s : State} (hrd : s.rd < s.cfg.C1) (hwr : s.wr < s.cfg.C1) {j : Nat}
    (hj : j < unread s) : (s.rd + j) % s.cfg.C1 ≠ s.wr := by
  intro heq
  have hmod : s.rd + j ≡ s.rd + unread s [MOD s.cfg.C1] := heq.trans (cursor_behind_unread hrd hwr).symm
  have hlt := unread_lt hrd
  have := (Nat.ModEq.add_left_cancel' _ hmod).eq_of_lt_of_lt (hj.trans hlt) hlt
  omega

/-- R42 says that the unread text consists of written cells. -/
theorem window_written_iff (s : State) :
    (∀ j, j < unread s → (s.tbuf.read ((s.rd + j) % s.cfg.C1)).isSome) ↔
      ∀ x ∈ unreadText s, x.isSome := by
  simp [unreadText]

theorem unreadText_eq_nil {s : State} (h : unread s = 0) : unreadText s = [] := by
  simp [unreadText, h]

/-! ## A push -/

theorem unread_pushText (b : Byte) (s : State) :
    unread (pushText b s) = (unread s + 1) % s.cfg.C1 := by
  simp only [unread, pushText]
  rw [Nat.mod_add_mod, Nat.mod_add_mod, Nat.add_right_comm]

/-- A push into a ring with room adds one to the count. -/
theorem unread_pushText_of_room (b : Byte) {s : State} (hroom : unread s < s.cfg.C1 - 1) :
    unread (pushText b s) = unread s + 1 := by
  rw [unread_pushText, Nat.mod_eq_of_lt (by omega)]

/-- A push into a ring with `C1 - 1` unread characters leaves none (R53). -/
theorem unread_pushText_of_full (b : Byte) {s : State} (hrd : s.rd < s.cfg.C1)
    (hfull : unread s = s.cfg.C1 - 1) : unread (pushText b s) = 0 := by
  have hsucc : unread s + 1 = s.cfg.C1 := by omega
  rw [unread_pushText, hsucc, Nat.mod_self]

/-- A push into a ring with room puts its byte behind the unread text (R56). -/
theorem unreadText_pushText (b : Byte) {s : State} (hrd : s.rd < s.cfg.C1) (hwr : s.wr < s.cfg.C1)
    (hroom : unread s < s.cfg.C1 - 1) : unreadText (pushText b s) = unreadText s ++ [some b] := by
  have hold : ∀ j ∈ List.range (unread s),
      (s.tbuf.write s.wr b).read ((s.rd + j) % s.cfg.C1) = s.tbuf.read ((s.rd + j) % s.cfg.C1) :=
    fun j hj => Memory.read_write_other _ _ (unread_cell_ne_wr hrd hwr (List.mem_range.mp hj))
  have hnew : (s.tbuf.write s.wr b).read ((s.rd + unread s) % s.cfg.C1) = some b := by
    rw [cursor_behind_unread hrd hwr, Memory.read_write_same]
  rw [unreadText, unread_pushText_of_room b hroom, List.range_succ, List.map_append, List.map_singleton]
  exact congrArg₂ (· ++ ·) (List.map_congr_left hold) (congrArg ([·]) hnew)

/-! ## An advance -/

theorem unread_textAdvance {s : State} (hrd : s.rd < s.cfg.C1) (hwr : s.wr < s.cfg.C1)
    (hne : s.rd ≠ s.wr) : unread s = unread (textAdvance s) + 1 := by
  have hnext : (textAdvance s).rd < (textAdvance s).cfg.C1 := Nat.mod_lt _ (Nat.zero_lt_of_lt hrd)
  have hcursor : (s.rd + 1) % s.cfg.C1 = if s.rd + 1 = s.cfg.C1 then 0 else s.rd + 1 := by
    split
    · rename_i hwrap
      rw [hwrap, Nat.mod_self]
    · exact Nat.mod_eq_of_lt (by omega)
  rw [unread_eq hrd hwr, unread_eq hnext hwr]
  simp only [textAdvance_rd, textAdvance_wr, textAdvance_cfg, hcursor]
  split_ifs <;> omega

/-- An advance takes the oldest character off the unread text (R55). -/
theorem unreadText_textAdvance {s : State} (hrd : s.rd < s.cfg.C1) (hwr : s.wr < s.cfg.C1)
    (hne : s.rd ≠ s.wr) : unreadText s = s.tbuf.read s.rd :: unreadText (textAdvance s) := by
  have hshift : ∀ j, (s.rd + (j + 1)) % s.cfg.C1 = ((s.rd + 1) % s.cfg.C1 + j) % s.cfg.C1 := by
    intro j
    rw [Nat.mod_add_mod, Nat.add_assoc, Nat.add_comm 1 j]
  rw [unreadText, unread_textAdvance hrd hwr hne, List.range_succ_eq_map, List.map_cons, List.map_map,
    Nat.add_zero, Nat.mod_eq_of_lt hrd]
  exact congrArg _ (List.map_congr_left fun j _ => congrArg s.tbuf.read (hshift j))

/-! ## The obligations -/

/-- Settles O43: the three answers are those of a push into any ring, a full one and one with room. -/
theorem pushCountsModuloTheCapacity : Obligations.PushCountsModuloTheCapacity := by
  intro s t b hrd h
  cases exec_next.mp h with
  | textPut _ _ hwr =>
    have hnext : (pushText b s).wr < s.cfg.C1 := Nat.mod_lt _ (Nat.zero_lt_of_lt hrd)
    have hempty : textEmpty (pushText b s) = true ↔ unread (pushText b s) = 0 :=
      textEmpty_iff (s := pushText b s) hrd hnext
    refine ⟨unread_pushText b s, fun hfull => hempty.mpr (unread_pushText_of_full b hrd hfull),
      fun hroom => ⟨?_, unreadText_pushText b hrd hwr hroom⟩⟩
    have hpos : unread (pushText b s) ≠ 0 := by
      rw [unread_pushText_of_room b hroom]
      exact Nat.succ_ne_zero _
    exact Bool.eq_false_iff.mpr fun he => hpos (hempty.mp he)

/-- Settles O45: a data or unmapped frame starts over the advanced buffer, the other two over the buffer
as it was (R55, R95, R96, R97). -/
theorem framesTakeTheOldestCharacter : Obligations.FramesTakeTheOldestCharacter := by
  intro s t i hinv h
  constructor
  · rintro (rfl | rfl)
    · cases exec_next.mp h with
      | startData _ hne hrd hread _ =>
        exact ⟨_, hread, hread ▸ unreadText_textAdvance hrd hinv.wr_lt hne⟩
    · cases exec_next.mp h with
      | startNoCode _ hne hrd hread _ =>
        exact ⟨_, hread, hread ▸ unreadText_textAdvance hrd hinv.wr_lt hne⟩
  · rintro (rfl | rfl)
    · cases exec_next.mp h with
      | startShift => rfl
    · cases exec_next.mp h with
      | startEmpty => rfl

end Sys2Proof.Machine

end

section

namespace Sys2Proof.Machine

/-! The invariants R35 to R42: they hold after initialization, and each part of an operation keeps them
(the part of the buffers, of the codec, of the slots). -/

theorem boot_next {c : Config} {s : State} (h : boot c = .next s) :
    c.ok = true ∧ s = State.resetOf c := by
  unfold boot at h
  split at h
  · exact ⟨‹_›, (Host.Outcome.next.inj h).symm⟩
  · cases h

/-- Settles O56: at reset the cursors stand at 0 in a ring of at least two cells, nothing is unread and
nothing pending, and no cell is written. -/
theorem initializationEstablishesTheInvariants :
    Obligations.InitializationEstablishesTheInvariants := by
  intro c s h
  obtain ⟨hok, rfl⟩ := boot_next h
  obtain ⟨hC1, -, -⟩ := Config.ok_bounds hok
  have hring : 0 < c.C1 := by omega
  have hunread : unread (State.resetOf c) = 0 := by simp [unread, State.resetOf]
  exact {
    config := hok
    rd_lt := hring
    wr_lt := hring
    coff_le := Nat.zero_le _
    idle_at_slot_zero := fun _ => ⟨rfl, rfl⟩
    mark_without_data := fun _ => rfl
    coff_zero_in_data := fun _ => rfl
    long_iff_slot_one := by simp [State.resetOf]
    shift_code_current := fun _ hp => nomatch hp
    data_code_current := fun _ hp => nomatch hp
    window_written := fun j hj => absurd (hunread ▸ hj) (Nat.not_lt_zero j)
    tbuf_wf := List.Pairwise.nil
    tbuf_inside := fun _ hx => nomatch hx
    cbuf_wf := List.Pairwise.nil
    cbuf_inside := fun _ hx => nomatch hx }

/-! ## The text buffer -/

theorem BlockInv.ring_pos {s : State} (h : BlockInv s) : 0 < s.cfg.C1 := Nat.zero_lt_of_lt h.rd_lt

/-- A push keeps R42: a full ring becomes empty, and else the unread text gains a written cell. -/
theorem BlockInv.window_pushText {s : State} (h : BlockInv s) (b : Byte) :
    ∀ x ∈ unreadText (pushText b s), x.isSome := by
  by_cases hroom : unread s < s.cfg.C1 - 1
  · rw [unreadText_pushText b h.rd_lt h.wr_lt hroom]
    intro x hx
    rcases List.mem_append.mp hx with hold | hnew
    · exact (window_written_iff s).mp h.window_written x hold
    · rw [List.mem_singleton.mp hnew]
      rfl
  · have hlt := unread_lt h.rd_lt
    have hfull : unread s = s.cfg.C1 - 1 := by omega
    rw [unreadText_eq_nil (unread_pushText_of_full b h.rd_lt hfull)]
    exact fun _ hx => nomatch hx

theorem BlockInv.pushText {s : State} (h : BlockInv s) (b : Byte) : BlockInv (pushText b s) :=
  { h with
    wr_lt := Nat.mod_lt _ h.ring_pos
    window_written := (window_written_iff (Machine.pushText b s)).mpr (h.window_pushText b)
    tbuf_wf := Memory.wf_write h.tbuf_wf _ _
    tbuf_inside := Memory.inside_write h.tbuf_inside h.wr_lt _ }

/-- An advance in a nonempty buffer keeps R42: what stays unread was unread before. -/
theorem BlockInv.textAdvance {s : State} (h : BlockInv s) (hne : s.rd ≠ s.wr) :
    BlockInv (textAdvance s) :=
  { h with
    rd_lt := Nat.mod_lt _ h.ring_pos
    window_written := (window_written_iff (Machine.textAdvance s)).mpr fun x hx =>
      (window_written_iff s).mp h.window_written x
        (unreadText_textAdvance h.rd_lt h.wr_lt hne ▸ List.mem_cons_of_mem _ hx) }

/-! ## The command buffer -/

theorem BlockInv.coff_lt {s : State} (h : BlockInv s) : s.coff < s.cfg.C2 := by
  have hle := h.coff_le
  obtain ⟨-, hC2, -⟩ := Config.ok_bounds h.config
  omega

/-- ENTER_CMD and CMD_END clear the offset, which suits either mode (R35, R39). -/
theorem BlockInv.enterMode {s : State} (h : BlockInv s) (m : Mode) : BlockInv (enterMode m s) :=
  { h with
    coff_le := Nat.zero_le _
    coff_zero_in_data := fun _ => rfl }

/-- A byte stored inside the Command Buffer keeps the canonical form of its cells. -/
theorem BlockInv.writeCbuf {s : State} (h : BlockInv s) {i : Nat} (hi : i < s.cfg.C2) (b : Byte) :
    BlockInv { s with cbuf := s.cbuf.write i b } :=
  { h with
    cbuf_wf := Memory.wf_write h.cbuf_wf _ _
    cbuf_inside := Memory.inside_write h.cbuf_inside hi _ }

/-- In COMMAND mode the offset may stand anywhere below `C2` (R35). -/
theorem BlockInv.withCoff {s : State} (h : BlockInv s) (hmode : s.mode = .command) {k : Nat}
    (hk : k ≤ s.cfg.C2 - 1) : BlockInv { s with coff := k } :=
  { h with
    coff_le := hk
    coff_zero_in_data := fun hdata => nomatch hmode.symm.trans hdata }

theorem BlockInv.withReady {s : State} (h : BlockInv s) (r : Bool) : BlockInv { s with ready := r } :=
  { h with }

theorem BlockInv.emit {s : State} (h : BlockInv s) (x : Obs) : BlockInv (emit x s) :=
  { h with }

/-! ## The frame engine -/

/-- At slot 0 nothing is pending, so the Shift State may move (R37, R41). -/
theorem BlockInv.withShift {s : State} (h : BlockInv s) (hslot : s.slot = 0) (q : Shift) :
    BlockInv { s with shift := q } :=
  { h with
    shift_code_current := fun _ hp => nomatch (h.idle_at_slot_zero hslot).1.symm.trans hp
    data_code_current := fun _ hp => nomatch (h.idle_at_slot_zero hslot).1.symm.trans hp }

/-- A start slot keeps R38 since the line was at MARK, and R41 where the code it adopts suits the Shift
State. -/
theorem BlockInv.startFrame {s : State} (h : BlockInv s) (hslot : s.slot = 0) {p : Pending}
    (hshift : ∀ c, p = .shift c → c = shiftCode s.cfg s.shift)
    (hdata : ∀ c, p = .data c → ∃ b, lookup s.cfg b = some (c, s.shift)) : BlockInv (startFrame p s) :=
  { h with
    idle_at_slot_zero := fun hzero => nomatch hzero
    mark_without_data := fun (hp : p = .noData) => by
      subst hp
      exact (h.idle_at_slot_zero hslot).2
    long_iff_slot_one := ⟨fun _ => rfl, fun _ => rfl⟩
    shift_code_current := hshift
    data_code_current := hdata }

theorem slot_succ_val {k : Slot} (h : k.val ≤ 5) : (k + 1).val = k.val + 1 := by
  rw [Fin.val_add]
  exact Nat.mod_eq_of_lt (Nat.lt_of_le_of_lt (Nat.succ_le_succ h) (by decide))

/-- A data slot leaves slot 1 or higher, so neither slot 0's nor slot 1's relation is touched (R37, R40);
without data it does not drive the line (R38). -/
theorem BlockInv.dataSlot {s : State} (h : BlockInv s) (hfirst : 1 ≤ s.slot.val)
    (hlast : s.slot.val ≤ 5) : BlockInv (dataSlot s) := by
  have hnext := slot_succ_val hlast
  have hne (k : Slot) (hk : k.val ≤ 1) : s.slot + 1 ≠ k := by
    intro heq
    rw [heq] at hnext
    omega
  exact { h with
    idle_at_slot_zero := fun hzero => absurd hzero (hne 0 (by decide))
    mark_without_data := fun (hp : s.pending = .noData) => by
      rw [dataSlot_line, slotLevel, hp]
      exact h.mark_without_data hp
    long_iff_slot_one := ⟨(nomatch ·), fun hone => absurd hone (hne 1 (by decide))⟩ }

/-- The stop slot leaves the line idle, and the period was STD at slot 6 (R37, R40). -/
theorem BlockInv.stopSlot {s : State} (h : BlockInv s) (hslot : s.slot = 6) : BlockInv (stopSlot s) :=
  { h with
    idle_at_slot_zero := fun _ => ⟨rfl, rfl⟩
    mark_without_data := fun _ => rfl
    long_iff_slot_one :=
      ⟨fun hlong => absurd (hslot.symm.trans (h.long_iff_slot_one.mp hlong)) (by decide), (nomatch ·)⟩
    shift_code_current := fun _ hp => nomatch hp
    data_code_current := fun _ hp => nomatch hp }

/-! ## Every operation and every step -/

/-- Every operation keeps the invariants. -/
theorem BlockInv.effect {s t : State} {i : Instr} (h : BlockInv s) (he : Effect s i t) : BlockInv t := by
  cases he with
  | enterCmd _ => exact h.enterMode .command
  | textPut _ _ _ => exact h.pushText _
  | cmdEnd _ hcoff => exact ((h.writeCbuf hcoff _).enterMode .data).withReady true
  | cmdPut hmode _ hcoff =>
    exact (h.writeCbuf h.coff_lt _).withCoff hmode (Nat.succ_le_of_lt hcoff)
  | cmdDrop _ _ _ => exact h
  | startEmpty hslot _ => exact h.startFrame hslot (fun _ hp => nomatch hp) (fun _ hp => nomatch hp)
  | startData hslot hne _ _ hlookup =>
    refine (h.textAdvance hne).startFrame hslot (fun _ hp => nomatch hp) fun c hp => ?_
    obtain rfl := Pending.data.inj hp
    exact ⟨_, hlookup⟩
  | @startShift _ _ q hslot _ _ _ _ _ =>
    exact (h.withShift hslot q).startFrame hslot (fun _ hp => (Pending.shift.inj hp).symm)
      (fun _ hp => nomatch hp)
  | startNoCode hslot hne _ _ _ =>
    exact (h.textAdvance hne).startFrame hslot (fun _ hp => nomatch hp) (fun _ hp => nomatch hp)
  | bit hfirst hlast => exact h.dataSlot hfirst hlast
  | stop hslot => exact h.stopSlot hslot
  | ack => exact h.withReady false
  | read _ _ => exact h.emit _

/-- Settles O57: a step keeps its state, or takes an event off the stream, of which the invariants do not
speak, and runs an operation, which keeps them. -/
theorem stepKeepsTheInvariants : Obligations.StepKeepsTheInvariants := by
  intro s t hinv h
  obtain ⟨-, ⟨-, rfl⟩ | ⟨_, rest, _, -, -, heffect⟩⟩ := step_next h
  · exact hinv
  · exact (hinv.withInput rest).effect heffect

/-- Settles O58, by induction on how the state is reached. -/
theorem reachableStatesHaveTheInvariants : Obligations.ReachableStatesHaveTheInvariants := by
  intro s h
  induction h with
  | boot hboot => exact initializationEstablishesTheInvariants _ _ hboot
  | send _ _ ih => exact ih.withInput _
  | step _ hstep ih => exact stepKeepsTheInvariants _ _ ih hstep

end Sys2Proof.Machine

end

section

namespace Sys2Proof.Machine

/-! The cells, and the operations one by one: what each agent's operations leave as it was, which
operation writes which field, and the exact next state of those the tier 1 statements name. -/

/-! ## Cells -/

theorem memRead_outside {sp : Space} {i : Nat} {s : State} (h : i ≥ size s sp) :
    memRead sp i s = .error .indexOutOfRange := if_pos h

theorem memRead_unwritten {sp : Space} {i : Nat} {s : State} (hi : i < size s sp)
    (hread : (cells s sp).read i = none) : memRead sp i s = .error .readUnwritten := by
  rw [memRead, if_neg (Nat.not_le.mpr hi), hread]

/-- Settles O15: the three cases of R49 one by one. -/
theorem cellReadFollowsItsThreeCases : Obligations.CellReadFollowsItsThreeCases := by
  intro s sp i
  exact ⟨memRead_outside, memRead_unwritten, fun b hi hread => memRead_ok.mpr ⟨hi, hread⟩⟩

/-- Settles O17: the bound is the first thing a write tests. -/
theorem cellWriteOutsideTheBufferFaults : Obligations.CellWriteOutsideTheBufferFaults := by
  intro s sp i b hi
  exact if_pos hi

/-! ## The operations of a TICK event, in three kinds -/

/-- What a slot-0 tick makes pending, and the state it starts the frame over: nothing in an empty buffer,
the codec's outcome for the oldest character otherwise (R102 to R105). -/
inductive Adopts (s : State) : Pending → State → Prop where
  | empty : s.rd = s.wr → Adopts s .noData s
  | oldest {b : Byte} {p : Pending} {u : State} : s.rd ≠ s.wr → s.rd < s.cfg.C1 →
      s.tbuf.read s.rd = some b → CodecEffect s b p u → Adopts s p u

/-- The codec moves the Shift State or the read cursor, nothing else (R95, R96, R97). -/
theorem Adopts.frame {s u : State} {p : Pending} (h : Adopts s p u) :
    u = { s with shift := u.shift, rd := u.rd } := by
  cases h with
  | empty => rfl
  | oldest _ _ _ hcodec => cases hcodec <;> rfl

theorem Adopts.trace_eq {s u : State} {p : Pending} (h : Adopts s p u) : u.trace = s.trace :=
  congrArg (·.trace) h.frame

/-- Every tick operation starts a frame, drives a data slot or stops (R108). -/
theorem Effect.tick_cases {s t : State} {i : Instr} (h : Effect s i t) (ha : agentOf i = .tickTimer) :
    (s.slot = 0 ∧ ∃ p u, Adopts s p u ∧ t = startFrame p u) ∨
      ((1 ≤ s.slot.val ∧ s.slot.val ≤ 5) ∧ t = dataSlot s) ∨ (s.slot = 6 ∧ t = stopSlot s) := by
  cases h with
  | startEmpty hslot hcursors => exact .inl ⟨hslot, _, _, .empty hcursors, rfl⟩
  | startData hslot hne hrd hread hlookup =>
    exact .inl ⟨hslot, _, _, .oldest hne hrd hread (.data hlookup), rfl⟩
  | startShift hslot hne hrd hread hlookup hq =>
    exact .inl ⟨hslot, _, _, .oldest hne hrd hread (.shift hlookup hq), rfl⟩
  | startNoCode hslot hne hrd hread hlookup =>
    exact .inl ⟨hslot, _, _, .oldest hne hrd hread (.noCode hlookup), rfl⟩
  | bit hfirst hlast => exact .inr (.inl ⟨⟨hfirst, hlast⟩, rfl⟩)
  | stop hslot => exact .inr (.inr ⟨hslot, rfl⟩)
  | _ => cases ha

/-- Settles O38: the three kinds of tick are at slot 0, at slots 1 to 5 and at slot 6 (R108). -/
theorem slotsFollowTheirCycle : Obligations.SlotsFollowTheirCycle := by
  intro s t i ha h
  obtain ⟨hslot, p, u, -, rfl⟩ | ⟨⟨-, hlast⟩, rfl⟩ | ⟨hslot, rfl⟩ := (exec_next.mp h).tick_cases ha
  · rw [hslot]
    rfl
  · rw [dataSlot_slot, slot_succ_val hlast, if_neg (by omega)]
  · rw [hslot]
    rfl

/-- Settles O46: only a start slot is at slot 0, and of what it may adopt only the codec's data outcome
is a data code, for a character of the current Shift State (R96, R100). -/
theorem dataCodesMatchTheShiftState : Obligations.DataCodesMatchTheShiftState := by
  intro s t i c ha hslot h hpending
  obtain ⟨-, p, u, hadopts, rfl⟩ | ⟨⟨hfirst, -⟩, -⟩ | ⟨hstop, -⟩ := (exec_next.mp h).tick_cases ha
  · obtain rfl : p = .data c := hpending
    cases hadopts with
    | oldest _ _ hread hcodec =>
      cases hcodec with
      | data hlookup => exact ⟨_, hread, hlookup, rfl⟩
  · simp [hslot] at hfirst
  · simp [hslot] at hstop

/-! ## Frames -/

/-- A tick operation writes the transmitter's fields and the trace alone (R131). -/
theorem Effect.tick_frame {s t : State} {i : Instr} (h : Effect s i t) (ha : agentOf i = .tickTimer) :
    t = { s with shift := t.shift, rd := t.rd, pending := t.pending, slot := t.slot, line := t.line,
                 period := t.period, trace := t.trace } := by
  cases h <;> cases ha <;> rfl

/-- A byte operation writes the demultiplexer's fields, `ready` and the cells alone (R131). -/
theorem Effect.byte_frame {s t : State} {i : Instr} (h : Effect s i t)
    (ha : agentOf i = .byteSource) :
    t = { s with mode := t.mode, wr := t.wr, coff := t.coff, ready := t.ready, tbuf := t.tbuf,
                 cbuf := t.cbuf } := by
  cases h <;> cases ha <;> rfl

/-- A host operation writes `ready` and the trace alone (R113). -/
theorem Effect.host_frame {s t : State} {i : Instr} (h : Effect s i t) (ha : agentOf i = .host) :
    t = { s with ready := t.ready, trace := t.trace } := by
  cases h <;> cases ha <;> rfl

/-- The cells of either memory, from the two cell lists. -/
theorem cells_eq {s t : State} (htbuf : t.tbuf = s.tbuf) (hcbuf : t.cbuf = s.cbuf) (sp : Space) :
    cells t sp = cells s sp := by
  cases sp with
  | tbuf => exact htbuf
  | cbuf => exact hcbuf

/-- Settles O33: what the transmitter's frame leaves as it was. -/
theorem tickOperationsFrame : Obligations.TickOperationsFrame := by
  intro s t i ha h
  have hframe := (exec_next.mp h).tick_frame ha
  rw [hframe]
  exact ⟨rfl, rfl, rfl, rfl, rfl, rfl, fun sp a => congrArg (·.read a) (cells_eq (s := s) rfl rfl sp)⟩

/-- Settles O35: what the host's frame leaves as it was; HOST_READ's own next state adds to the trace
alone. -/
theorem hostOperationsFrame : Obligations.HostOperationsFrame := by
  intro s t i ha h
  have heffect := exec_next.mp h
  have hframe := heffect.host_frame ha
  refine ⟨congrArg (·.toBlock) hframe, congrArg (·.cfg) hframe, congrArg (·.input) hframe, ?_, ?_⟩
  · rintro k rfl
    cases heffect with
    | read => rfl
  · intro sp a
    rw [hframe]
    exact congrArg (·.read a) (cells_eq (s := s) rfl rfl sp)

/-- The one cell of TBUF that an operation writes is TEXT_PUT's, at the write cursor (R45). -/
theorem Effect.tbuf_read {s t : State} {i : Instr} (h : Effect s i t) {a : Nat}
    (ha : ¬((∃ b, i = .textPut b) ∧ a = s.wr)) : t.tbuf.read a = s.tbuf.read a := by
  cases h with
  | textPut => exact Memory.read_write_other _ _ fun hwr => ha ⟨⟨_, rfl⟩, hwr⟩
  | _ => rfl

/-- The one cell of CBUF that an operation writes is CMD_PUT's or CMD_END's, at the offset (R45). -/
theorem Effect.cbuf_read {s t : State} {i : Instr} (h : Effect s i t) {a : Nat}
    (ha : ¬((∃ b, i = .cmdPut b ∨ i = .cmdEnd b) ∧ a = s.coff)) : t.cbuf.read a = s.cbuf.read a := by
  cases h with
  | cmdPut => exact Memory.read_write_other _ _ fun hcoff => ha ⟨⟨_, .inl rfl⟩, hcoff⟩
  | cmdEnd => exact Memory.read_write_other _ _ fun hcoff => ha ⟨⟨_, .inr rfl⟩, hcoff⟩
  | _ => rfl

/-- Settles O34: what the demultiplexer's frame leaves as it was, and the cells one by one. -/
theorem byteOperationsFrame : Obligations.ByteOperationsFrame := by
  intro s t i ha h
  have heffect := exec_next.mp h
  have hframe := heffect.byte_frame ha
  exact ⟨congrArg (·.shift) hframe, congrArg (·.rd) hframe, congrArg (·.pending) hframe,
    congrArg (·.slot) hframe, congrArg (·.line) hframe, congrArg (·.period) hframe,
    congrArg (·.cfg) hframe, congrArg (·.input) hframe, congrArg (·.trace) hframe,
    fun _ => heffect.tbuf_read, fun _ => heffect.cbuf_read⟩

/-! ## Writers: a field is as it was, or the operation is one that R22 to R31 name -/

section writers
variable {s t : State} {i : Instr}

theorem Effect.shift_writer (h : Effect s i t) : t.shift = s.shift ∨ i = .tickStartShift := by
  cases h with
  | startShift => exact .inr rfl
  | _ => exact .inl rfl

theorem Effect.mode_writer (h : Effect s i t) :
    t.mode = s.mode ∨ ∃ b, i = .enterCmd b ∨ i = .cmdEnd b := by
  cases h with
  | enterCmd => exact .inr ⟨_, .inl rfl⟩
  | cmdEnd => exact .inr ⟨_, .inr rfl⟩
  | _ => exact .inl rfl

theorem Effect.rd_writer (h : Effect s i t) :
    t.rd = s.rd ∨ (i = .tickStartData ∨ i = .tickStartNoCode) := by
  cases h with
  | startData => exact .inr (.inl rfl)
  | startNoCode => exact .inr (.inr rfl)
  | _ => exact .inl rfl

theorem Effect.wr_writer (h : Effect s i t) : t.wr = s.wr ∨ ∃ b, i = .textPut b := by
  cases h with
  | textPut => exact .inr ⟨_, rfl⟩
  | _ => exact .inl rfl

theorem Effect.coff_writer (h : Effect s i t) :
    t.coff = s.coff ∨ ∃ b, i = .enterCmd b ∨ i = .cmdEnd b ∨ i = .cmdPut b := by
  cases h with
  | enterCmd => exact .inr ⟨_, .inl rfl⟩
  | cmdEnd => exact .inr ⟨_, .inr (.inl rfl)⟩
  | cmdPut => exact .inr ⟨_, .inr (.inr rfl)⟩
  | _ => exact .inl rfl

theorem Effect.ready_writer (h : Effect s i t) :
    t.ready = s.ready ∨ (t.ready = true ∧ ∃ b, i = .cmdEnd b) ∨ (t.ready = false ∧ i = .hostAck) := by
  cases h with
  | cmdEnd => exact .inr (.inl ⟨rfl, _, rfl⟩)
  | ack => exact .inr (.inr ⟨rfl, rfl⟩)
  | _ => exact .inl rfl

/-- Only a tick moves the transmitter (R28 to R31, R131). -/
theorem Effect.transmitter_writer (h : Effect s i t) :
    (t.pending = s.pending ∧ t.slot = s.slot ∧ t.line = s.line ∧ t.period = s.period) ∨
      agentOf i = .tickTimer := by
  cases ha : agentOf i with
  | tickTimer => exact .inr rfl
  | byteSource =>
    rw [h.byte_frame ha]
    exact .inl ⟨rfl, rfl, rfl, rfl⟩
  | host =>
    rw [h.host_frame ha]
    exact .inl ⟨rfl, rfl, rfl, rfl⟩

theorem Effect.pending_writer (h : Effect s i t) :
    t.pending = s.pending ∨ (agentOf i = .tickTimer ∧ (s.slot = 0 ∨ s.slot = 6)) := by
  rcases h.transmitter_writer with hsame | ha
  · exact .inl hsame.1
  · obtain ⟨hslot, -⟩ | ⟨-, rfl⟩ | ⟨hslot, -⟩ := h.tick_cases ha
    · exact .inr ⟨ha, .inl hslot⟩
    · exact .inl rfl
    · exact .inr ⟨ha, .inr hslot⟩

end writers

/-- Settles O37: of a field that changed, the operation is the writer that R22 to R31 name. -/
theorem fieldsChangeOnlyByTheirWriters : Obligations.FieldsChangeOnlyByTheirWriters := by
  intro s t i h
  have heffect := exec_next.mp h
  refine ⟨heffect.shift_writer.resolve_left, heffect.mode_writer.resolve_left,
    heffect.rd_writer.resolve_left, heffect.wr_writer.resolve_left, heffect.coff_writer.resolve_left,
    fun hs ht => ?_, fun hs ht => ?_, heffect.pending_writer.resolve_left, fun hne => ?_⟩
  · rcases heffect.ready_writer with hsame | ⟨-, hend⟩ | ⟨hfalse, -⟩
    · exact absurd (hsame.symm.trans ht) (by simp [hs])
    · exact hend
    · exact absurd (hfalse.symm.trans ht) (by decide)
  · rcases heffect.ready_writer with hsame | ⟨htrue, -⟩ | ⟨-, hack⟩
    · exact absurd (hsame.symm.trans ht) (by simp [hs])
    · exact absurd (htrue.symm.trans ht) (by decide)
    · exact hack
  · rcases heffect.transmitter_writer with ⟨-, hslot, hline, hperiod⟩ | ha
    · simp [hslot, hline, hperiod] at hne
    · exact ha

/-- Settles O39: a tick of each kind observes the line it left, HOST_READ the byte of its cell, and the
demultiplexer's frame and HOST_ACK leave the trace alone (R150). -/
theorem traceRecordsTicksAndReads : Obligations.TraceRecordsTicksAndReads := by
  intro s t i h
  have heffect := exec_next.mp h
  refine ⟨fun ha => ?_, ?_, ?_⟩
  · obtain ⟨-, p, u, hadopts, rfl⟩ | ⟨-, rfl⟩ | ⟨-, rfl⟩ := heffect.tick_cases ha
    · rw [startFrame_trace, hadopts.trace_eq]
      rfl
    · rfl
    · rfl
  · rintro k rfl
    cases heffect with
    | read _ hread => exact ⟨_, hread, rfl⟩
  · rintro (ha | rfl)
    · exact congrArg (·.trace) (heffect.byte_frame ha)
    · cases heffect
      rfl

/-! ## Next states -/

/-- Settles O23: an empty buffer meets R102's condition, and with NoData the line is not driven. -/
theorem startEmptyBeginsAnIdleFrame : Obligations.StartEmptyBeginsAnIdleFrame := by
  intro s hslot hcursors
  exact ⟨_, exec_next.mpr (.startEmpty hslot hcursors), rfl⟩

/-- Settles O26: an unmapped character meets R105's condition; the next state starts an idle frame over
the advanced buffer. -/
theorem startNoCodeConsumesSilently : Obligations.StartNoCodeConsumesSilently := by
  intro s b hslot hne hrd hread hlookup
  exact ⟨_, exec_next.mpr (.startNoCode hslot hne hrd hread hlookup), rfl⟩

theorem slotLevel_of_noData {s : State} (k : Nat) (h : s.pending = .noData) :
    slotLevel k s = s.line := by
  simp [slotLevel, pendingCode, h]

theorem slotLevel_of_code {s : State} {c : Code} (k : Nat) (h : pendingCode s.pending = some c) :
    slotLevel k s = bitLevel c (k - 1) := by
  simp [slotLevel, h]

/-- Settles O27: R106's next state is the data slot's, whose line is left alone without a code and else
is the level of the slot's bit. -/
theorem tickBitDrivesItsBit : Obligations.TickBitDrivesItsBit := by
  intro s hfirst hlast
  refine ⟨_, exec_next.mpr (.bit hfirst hlast), rfl, slot_succ_val hlast, slotLevel_of_noData _,
    fun c hc => ?_⟩
  have hcode : pendingCode s.pending = some c := by
    rcases hc with hp | hp <;> rw [hp] <;> rfl
  exact slotLevel_of_code _ hcode

/-- Settles O29: R114's next state. -/
theorem hostAckClearsReady : Obligations.HostAckClearsReady := by
  intro s
  exact exec_next.mpr .ack

/-- The last byte read stands on `rdata`, whatever was observed before it (R115). -/
theorem lastRead_append_rdata (l : List Obs) (b : Byte) : lastRead (l ++ [.rdata b]) = some b := by
  induction l with
  | nil => rfl
  | cons x l ih =>
    cases x with
    | line => exact ih
    | rdata => simp [lastRead, ih]

/-- Settles O30: the index is tested first, then R49's cases of the read (R115). -/
theorem hostReadFollowsItsThreeCases : Obligations.HostReadFollowsItsThreeCases := by
  intro s i
  refine ⟨fun hi => if_pos hi, fun hi hread => ?_, fun b hi hread => ?_⟩
  · have hfault : memRead .cbuf i.toNat s = .error .readUnwritten := memRead_unwritten hi hread
    simp [exec, execHostRead, readIndex, Nat.not_le.mpr hi, hfault]
  · exact ⟨_, exec_next.mpr (.read hi hread), rfl, lastRead_append_rdata _ _⟩

end Sys2Proof.Machine

end

section

namespace Sys2Proof

/-! The configuration: its check as the constraints of R6, R7 and R72, and the Code Table with its
inverse. -/

/-- What the check tests of a configuration's list of entries. -/
theorem Config.ok_iff (c : Config) :
    c.ok = true ↔ (2 ≤ c.C1 ∧ 2 ≤ c.C2 ∧ c.C2 ≤ 256) ∧
      (∀ e ∈ c.codeTable, e.code ≠ c.ltrsCode ∧ e.code ≠ c.figsCode) ∧
      (c.codeTable.map TableEntry.char).Nodup ∧ (c.codeTable.map fun e => (e.code, e.shift)).Nodup ∧
      lookup c 0x41#8 = some (0x03#5, .letters) := by
  rw [← charsDistinct_iff, ← codesDistinct_iff]
  simp only [Config.ok, Bool.and_eq_true, decide_eq_true_eq, List.all_eq_true, bne_iff_ne, beq_iff_eq,
    and_assoc]

theorem Config.chars_nodup {c : Config} (h : c.ok = true) : (c.codeTable.map TableEntry.char).Nodup := by
  obtain ⟨-, -, hchars, -, -⟩ := c.ok_iff.mp h
  exact hchars

theorem Config.codes_nodup {c : Config} (h : c.ok = true) :
    (c.codeTable.map fun e => (e.code, e.shift)).Nodup := by
  obtain ⟨-, -, -, hcodes, -⟩ := c.ok_iff.mp h
  exact hcodes

theorem Machine.boot_refused {c : Config} (h : c.ok = false) :
    Machine.boot c = .refused .badConfiguration := by
  simp [Machine.boot, h]

/-- No pair of code and shift is listed twice exactly where the map from a mapped character to its pair
is injective (R72(c)). -/
theorem codes_nodup_iff {c : Config} (hchars : (c.codeTable.map TableEntry.char).Nodup) :
    (c.codeTable.map fun e => (e.code, e.shift)).Nodup ↔
      ∀ b b' x, lookup c b = some x → lookup c b' = some x → b = b' := by
  rw [List.nodup_map_iff_inj_on hchars.of_map]
  constructor
  · rintro hinj b b' ⟨k, q⟩ hb hb'
    have heq := hinj _ ((lookup_iff hchars).mp hb) _ ((lookup_iff hchars).mp hb') rfl
    exact congrArg TableEntry.char heq
  · rintro hinj ⟨b, k, q⟩ he ⟨b', k', q'⟩ he' hpair
    obtain ⟨rfl, rfl⟩ := Prod.mk.inj hpair
    obtain rfl := hinj _ _ _ ((lookup_iff hchars).mpr he) ((lookup_iff hchars).mpr he')
    rfl

/-- The listed codes are those that a lookup answers. -/
theorem forall_code_iff {c : Config} (hchars : (c.codeTable.map TableEntry.char).Nodup)
    (P : Code → Prop) :
    (∀ e ∈ c.codeTable, P e.code) ↔ ∀ b code q, lookup c b = some (code, q) → P code :=
  ⟨fun h _ _ _ hl => h _ ((lookup_iff hchars).mp hl),
    fun h _ he => h _ _ _ ((lookup_iff hchars).mpr he)⟩

/-- Settles O8: with each character listed once, what the check tests of the list of entries is what R72
asks of the function it spells. -/
theorem configurationCheckTestsTheConstraints : Obligations.ConfigurationCheckTestsTheConstraints := by
  intro c hchars
  refine ⟨?_, Machine.boot_refused⟩
  have hcodes := forall_code_iff hchars fun code => code ≠ c.ltrsCode ∧ code ≠ c.figsCode
  rw [c.ok_iff, hcodes, codes_nodup_iff hchars]
  simp only [hchars, true_and, and_assoc]

/-- Settles O9: the check tests that no character is listed twice (R11). -/
theorem tablesListingACharacterTwiceAreRefused : Obligations.TablesListingACharacterTwiceAreRefused := by
  intro c hchars
  exact Machine.boot_refused (Bool.eq_false_iff.mpr fun hok => hchars (Config.chars_nodup hok))

/-- Settles O7: initialization answers the reset state, whose fields R137 lists, or refuses. -/
theorem initializationSetsResetValues : Obligations.InitializationSetsResetValues := by
  intro c
  refine ⟨fun hok => ⟨Machine.State.resetOf c, if_pos hok, ?_⟩, Machine.boot_refused⟩
  exact ⟨rfl, rfl, rfl, rfl, rfl, rfl, rfl, rfl, rfl, rfl, rfl, fun _ => rfl, fun _ => rfl⟩

/-- Settles O10: the check stands before everything else in a step. -/
theorem badConfigurationIsRefused : Obligations.BadConfigurationIsRefused := by
  intro s h
  simp [Machine.step, h]

/-! ## The inverse table -/

/-- Where no pair of code and shift is listed twice, the inverse table finds exactly the listed
entries. -/
theorem charOf_iff {c : Config} (h : (c.codeTable.map fun e => (e.code, e.shift)).Nodup) {b : Byte}
    {k : Code} {q : Shift} : charOf c k q = some b ↔ (⟨b, k, q⟩ : TableEntry) ∈ c.codeTable := by
  constructor
  · intro hfound
    obtain ⟨e, he, rfl⟩ := Option.map_eq_some_iff.mp hfound
    have hkey := List.find?_some he
    rw [Bool.and_eq_true, beq_iff_eq, beq_iff_eq] at hkey
    obtain ⟨rfl, rfl⟩ := hkey
    exact List.mem_of_find?_eq_some he
  · intro hm
    have hsome : (c.codeTable.find? fun e => e.code == k && e.shift == q).isSome :=
      List.find?_isSome.mpr ⟨_, hm, by simp⟩
    obtain ⟨e, he⟩ := Option.isSome_iff_exists.mp hsome
    have hkey := List.find?_some he
    rw [Bool.and_eq_true, beq_iff_eq, beq_iff_eq] at hkey
    have heq : e = ⟨b, k, q⟩ := List.inj_on_of_nodup_map h (List.mem_of_find?_eq_some he) hm
      (Prod.ext hkey.1 hkey.2)
    rw [charOf, he, heq]
    rfl

/-- Settles O13: in a checked table the lookup and the inverse table both find exactly the listed
entries (R101). -/
theorem inverseTableReturnsTheCharacter : Obligations.InverseTableReturnsTheCharacter := by
  intro c hok b code q
  rw [lookup_iff (Config.chars_nodup hok), charOf_iff (Config.codes_nodup hok)]

/-- Settles O14: by the two cases of `shiftCode`. -/
theorem shiftCodesNameTheirState : Obligations.ShiftCodesNameTheirState :=
  ⟨fun _ => ⟨rfl, rfl⟩, fun _ _ _ _ => ⟨rfl, rfl⟩⟩

/-! ## The default tables -/

theorem defaultTable_chars_nodup (v : FigsVariant) : ((defaultTable v).map TableEntry.char).Nodup := by
  cases v <;> decide

theorem defaultTable_codes_nodup (v : FigsVariant) :
    ((defaultTable v).map fun e => (e.code, e.shift)).Nodup := by
  cases v <;> decide

/-- No default character has a shift-switch code or the blank code (R72(b), R77). -/
theorem defaultTable_codes (v : FigsVariant) :
    ∀ e ∈ defaultTable v, (e.code ≠ 0x1F#5 ∧ e.code ≠ 0x1B#5) ∧ e.code ≠ 0x00#5 := by
  cases v <;> decide

/-- Settles O11: the capacities are those of the hypotheses, and the rest is a check of the two default
tables. -/
theorem defaultConfigurationsPassTheCheck : Obligations.DefaultConfigurationsPassTheCheck := by
  intro v c1 c2 tBit h1 h2 h256
  exact (Config.ok_iff _).mpr ⟨⟨h1, h2, h256⟩, fun e he => (defaultTable_codes v e he).1,
    defaultTable_chars_nodup v, defaultTable_codes_nodup v, by cases v <;> rfl⟩

/-- The bytes that R73 to R76 list for a variant. -/
def listedBytes (v : FigsVariant) (b : Byte) : Prop :=
  (0x41#8 ≤ b ∧ b ≤ 0x5A#8) ∨
  b ∈ [0x20#8, 0x0D#8, 0x0A#8, 0x2D#8, 0x3F#8, 0x3A#8, 0x28#8, 0x29#8, 0x2E#8, 0x2C#8, 0x2F#8] ∨
  (0x30#8 ≤ b ∧ b ≤ 0x39#8) ∨
  (v = .ita2Intl ∧ b ∈ [0x05#8, 0x07#8, 0x27#8, 0x3D#8, 0x2B#8]) ∨
  (v = .usTty ∧ b ∈ [0x24#8, 0x21#8, 0x26#8, 0x23#8, 0x27#8, 0x07#8, 0x3B#8, 0x22#8])

theorem defaultTable_listed (v : FigsVariant) : ∀ e ∈ defaultTable v, listedBytes v e.char := by
  unfold listedBytes
  cases v <;> decide

/-- Settles O12: a mapped byte is the character of an entry, and the entries are the bytes listed, none
of them with the blank code. -/
theorem defaultTableLeavesTheRestUnmapped : Obligations.DefaultTableLeavesTheRestUnmapped := by
  intro v c1 c2 tBit b
  have hentry {k : Code} {q : Shift} (hl : lookup (Config.standard v c1 c2 tBit) b = some (k, q)) :
      (⟨b, k, q⟩ : TableEntry) ∈ defaultTable v :=
    (lookup_iff (c := Config.standard v c1 c2 tBit) (defaultTable_chars_nodup v)).mp hl
  refine ⟨fun hcapital hformat hdigit hintl hus => ?_, fun q hl => ?_⟩
  · refine Option.eq_none_iff_forall_ne_some.mpr fun ⟨k, q⟩ hl => ?_
    rcases defaultTable_listed v _ (hentry hl) with h | h | h | ⟨hv, h⟩ | ⟨hv, h⟩
    · exact hcapital h
    · exact hformat h
    · exact hdigit h
    · exact hintl hv h
    · exact hus hv h
  · obtain ⟨-, hblank⟩ := defaultTable_codes v _ (hentry hl)
    exact hblank rfl

end Sys2Proof

end

section

namespace Sys2Proof.Machine

/-! Where an operation applies, and what a step does with a word: conditions and outcomes (R18, R79,
R80, R87). -/

/-! ## An operation that answers has its condition -/

theorem codecCase_of_lookup {c : Config} {q r : Shift} {b : Byte} {k : Code}
    (h : lookup c b = some (k, r)) : codecCase c q b = if r = q then .data else .shift := by
  simp [codecCase, h]

theorem codecCase_of_none {c : Config} {q : Shift} {b : Byte} (h : lookup c b = none) :
    codecCase c q b = .noCode := by
  simp [codecCase, h]

/-- The codec's outcome that a Pending Code stands for (R95, R96, R97). -/
def outcomeOf : Pending → CodecCase
  | .noData => .noCode
  | .data _ => .data
  | .shift _ => .shift

/-- What the codec makes pending stands for the outcome the decoder sees (R98). -/
theorem CodecEffect.outcome {s t : State} {b : Byte} {p : Pending} (h : CodecEffect s b p t) :
    codecCase s.cfg s.shift b = outcomeOf p := by
  cases h with
  | noCode hlookup => exact codecCase_of_none hlookup
  | data hlookup => rw [codecCase_of_lookup hlookup, if_pos rfl]; rfl
  | shift hlookup hq => rw [codecCase_of_lookup hlookup, if_neg hq]; rfl

theorem view_codec {s : State} {b : Byte} (hrd : s.rd < s.cfg.C1) (hread : s.tbuf.read s.rd = some b) :
    (view s).codec = some (codecCase s.cfg s.shift b) := by
  rw [View.codec, view_oldest.mpr ⟨hrd, hread⟩]
  rfl

theorem view_empty_iff {s : State} : (view s).empty = true ↔ s.rd = s.wr := beq_iff_eq

theorem view_nonempty_iff {s : State} : (view s).empty = false ↔ s.rd ≠ s.wr := beq_eq_false_iff_ne

/-- An operation that answers a next state is well formed and has its condition (R79, R80, R81). -/
theorem Effect.fits {s t : State} {i : Instr} (h : Effect s i t) :
    i.wellFormed s.cfg = true ∧ i.condition (view s) = true := by
  cases h with
  | enterCmd hmode => exact ⟨wellFormed_enterCmd.mpr rfl, condition_enterCmd.mpr hmode⟩
  | textPut hmode hesc _ => exact ⟨wellFormed_textPut.mpr hesc, condition_textPut.mpr hmode⟩
  | cmdEnd hmode _ => exact ⟨wellFormed_cmdEnd.mpr rfl, condition_cmdEnd.mpr hmode⟩
  | cmdPut hmode hterm hcoff =>
    exact ⟨wellFormed_cmdPut.mpr hterm, condition_cmdPut.mpr ⟨hmode, hcoff⟩⟩
  | cmdDrop hmode hterm hcoff =>
    exact ⟨wellFormed_cmdDrop.mpr hterm, condition_cmdDrop.mpr ⟨hmode, hcoff⟩⟩
  | startEmpty hslot hcursors =>
    exact ⟨rfl, condition_tickStartEmpty.mpr ⟨hslot, view_empty_iff.mpr hcursors⟩⟩
  | startData hslot hne hrd hread hlookup =>
    have hcodec := (view_codec hrd hread).trans (congrArg some (CodecEffect.data hlookup).outcome)
    exact ⟨rfl, condition_tickStartData.mpr ⟨⟨hslot, view_nonempty_iff.mpr hne⟩, hcodec⟩⟩
  | startShift hslot hne hrd hread hlookup hq =>
    have hcodec := (view_codec hrd hread).trans (congrArg some (CodecEffect.shift hlookup hq).outcome)
    exact ⟨rfl, condition_tickStartShift.mpr ⟨⟨hslot, view_nonempty_iff.mpr hne⟩, hcodec⟩⟩
  | startNoCode hslot hne hrd hread hlookup =>
    have hcodec := (view_codec hrd hread).trans (congrArg some (CodecEffect.noCode hlookup).outcome)
    exact ⟨rfl, condition_tickStartNoCode.mpr ⟨⟨hslot, view_nonempty_iff.mpr hne⟩, hcodec⟩⟩
  | bit hfirst hlast => exact ⟨rfl, condition_tickBit.mpr ⟨hfirst, hlast⟩⟩
  | stop hslot => exact ⟨rfl, condition_tickStop.mpr hslot⟩
  | ack => exact ⟨rfl, rfl⟩
  | read hk _ => exact ⟨wellFormed_hostRead.mpr hk, rfl⟩

/-! ## Under the invariants every byte and every tick names an operation that answers -/

/-- The row of R79 that a byte selects answers: its cell is inside its buffer (R35). -/
theorem BlockInv.byte_effect {s : State} (h : BlockInv s) (b : Byte) :
    ∃ t, Effect s (onByte (view s) b) t := by
  unfold onByte
  rw [view_mode, view_coff, view_cfg]
  cases hmode : s.mode with
  | data =>
    by_cases hesc : b = s.cfg.escByte
    · subst hesc
      simp only [if_true]
      exact ⟨_, .enterCmd hmode⟩
    · simp only [if_neg hesc]
      exact ⟨_, .textPut hmode hesc h.wr_lt⟩
  | command =>
    by_cases hterm : b = s.cfg.termByte
    · subst hterm
      simp only [if_true]
      exact ⟨_, .cmdEnd hmode h.coff_lt⟩
    · by_cases hcoff : s.coff < s.cfg.C2 - 1
      · simp only [if_neg hterm, if_pos hcoff]
        exact ⟨_, .cmdPut hmode hterm hcoff⟩
      · simp only [if_neg hterm, if_neg hcoff]
        exact ⟨_, .cmdDrop hmode hterm (Nat.le_of_not_lt hcoff)⟩

theorem encode_of_tickTimer {i : Instr} (h : agentOf i = .tickTimer) : encode i = evTick := by
  cases i <;> cases h <;> rfl

theorem encode_of_byteSource {i : Instr} (h : agentOf i = .byteSource) : ∃ b, encode i = evByte b := by
  cases i <;> cases h <;> exact ⟨_, rfl⟩

/-- Under the invariants an operation of the byte source or the timer answers where it fits: its word
decodes to it, and the operation that the word names answers. -/
theorem BlockInv.effect_of_fits {s : State} {i : Instr} (hinv : BlockInv s) (ha : agentOf i ≠ .host)
    (hw : i.wellFormed s.cfg = true) (hc : i.condition (view s) = true) : ∃ t, Effect s i t := by
  have hdecode : decode (view s) (encode i) = .ok i := decode_encode_of_condition hw hc
  cases hagent : agentOf i with
  | tickTimer =>
    rw [encode_of_tickTimer hagent] at hdecode
    obtain ⟨j, t, hj, heffect⟩ := hinv.tick_effect
    obtain rfl : j = i := Except.ok.inj (hj.symm.trans hdecode)
    exact ⟨t, heffect⟩
  | byteSource =>
    obtain ⟨b, hb⟩ := encode_of_byteSource hagent
    rw [hb, decode_evByte] at hdecode
    exact Except.ok.inj hdecode ▸ hinv.byte_effect b
  | host => exact absurd hagent ha

/-- Settles O32: an answer has its condition, and a condition that holds brings the answer. -/
theorem operationsCompleteExactlyUnderTheirCondition :
    Obligations.OperationsCompleteExactlyUnderTheirCondition := by
  intro s i hinv ha
  constructor
  · rintro ⟨t, ht⟩
    exact (exec_next.mp ht).fits
  · rintro ⟨hw, hc⟩
    obtain ⟨t, ht⟩ := hinv.effect_of_fits ha hw hc
    exact ⟨t, exec_next.mpr ht⟩

/-! ## Outside its condition -/

/-- The codec has an outcome for every character (R98). -/
theorem codecEffect_exists (s : State) (b : Byte) : ∃ p u, CodecEffect s b p u := by
  cases hl : lookup s.cfg b with
  | none => exact ⟨_, _, .noCode hl⟩
  | some x =>
    obtain ⟨c, q⟩ := x
    by_cases hq : q = s.shift
    · exact ⟨_, _, .data (hq ▸ hl)⟩
    · exact ⟨_, _, .shift hl hq⟩

/-- A start slot that takes one outcome of the codec faults where the buffer's oldest character has
another, where the buffer is empty, and at any other slot (R103, R104, R105). -/
theorem startFromCodec_fault {takes : Pending → Bool} {k : CodecCase} {s : State}
    (htakes : ∀ p, takes p = true ↔ outcomeOf p = k)
    (hreadable : s.slot = 0 → s.rd ≠ s.wr → ((view s).oldest).isSome = true)
    (hcond : ¬(((view s).slot = 0 ∧ (view s).empty = false) ∧ (view s).codec = some k)) :
    startFromCodec takes s = .fault .ruleNotApplicable := by
  rw [view_slot, view_nonempty_iff] at hcond
  unfold startFromCodec
  by_cases hstart : s.slot = 0 ∧ s.rd ≠ s.wr
  · obtain ⟨b, hb⟩ := Option.isSome_iff_exists.mp (hreadable hstart.1 hstart.2)
    obtain ⟨hrd, hread⟩ := view_oldest.mp hb
    obtain ⟨p, u, hcodec⟩ := codecEffect_exists s b
    have hresolve := codecResolve_ok.mpr ⟨b, hrd, hread, hcodec⟩
    have hother : ¬takes p = true := fun hp =>
      hcond ⟨hstart, by rw [view_codec hrd hread, hcodec.outcome, (htakes p).mp hp]⟩
    rw [require_pos hstart, hresolve]
    exact require_neg hother _
  · exact require_neg hstart _

/-- Settles O31: what each operation requires first is its operand and its condition; the three start
slots of a nonempty buffer require the codec's outcome after the read. -/
theorem operationsOutsideTheirConditionFault : Obligations.OperationsOutsideTheirConditionFault := by
  intro s i ha hreadable hout
  have hnot : ¬(i.wellFormed s.cfg = true ∧ i.condition (view s) = true) := by
    rintro ⟨hw, hc⟩
    rcases hout with hw' | hc'
    · exact absurd (hw'.symm.trans hw) (by decide)
    · exact absurd (hc'.symm.trans hc) (by decide)
  cases i with
  | enterCmd b =>
    exact require_neg (fun h => hnot ⟨wellFormed_enterCmd.mpr h.2, condition_enterCmd.mpr h.1⟩) _
  | textPut b =>
    exact require_neg (fun h => hnot ⟨wellFormed_textPut.mpr h.2, condition_textPut.mpr h.1⟩) _
  | cmdEnd b =>
    exact require_neg (fun h => hnot ⟨wellFormed_cmdEnd.mpr h.2, condition_cmdEnd.mpr h.1⟩) _
  | cmdPut b =>
    exact require_neg
      (fun ⟨hmode, hterm, hcoff⟩ =>
        hnot ⟨wellFormed_cmdPut.mpr hterm, condition_cmdPut.mpr ⟨hmode, hcoff⟩⟩) _
  | cmdDrop b =>
    exact require_neg
      (fun ⟨hmode, hterm, hcoff⟩ =>
        hnot ⟨wellFormed_cmdDrop.mpr hterm, condition_cmdDrop.mpr ⟨hmode, hcoff⟩⟩) _
  | tickStartEmpty =>
    exact require_neg
      (fun h => hnot ⟨rfl, condition_tickStartEmpty.mpr ⟨h.1, view_empty_iff.mpr h.2⟩⟩) _
  | tickStartData =>
    exact startFromCodec_fault (k := .data) (fun p => by cases p <;> simp [isData, outcomeOf])
      hreadable fun h => hnot ⟨rfl, condition_tickStartData.mpr h⟩
  | tickStartShift =>
    exact startFromCodec_fault (k := .shift) (fun p => by cases p <;> simp [isShift, outcomeOf])
      hreadable fun h => hnot ⟨rfl, condition_tickStartShift.mpr h⟩
  | tickStartNoCode =>
    exact startFromCodec_fault (k := .noCode) (fun p => by cases p <;> simp [outcomeOf])
      hreadable fun h => hnot ⟨rfl, condition_tickStartNoCode.mpr h⟩
  | tickBit => exact require_neg (fun h => hnot ⟨rfl, condition_tickBit.mpr h⟩) _
  | tickStop => exact require_neg (fun h => hnot ⟨rfl, condition_tickStop.mpr h⟩) _
  | hostAck => exact absurd rfl ha
  | hostRead k => exact absurd rfl ha

/-! ## Steps -/

/-- Settles O40: a decoded word is executed, with nothing added. -/
theorem stepRunsTheDecodedOperation : Obligations.StepRunsTheDecodedOperation := by
  intro s ev rest i hc hi hd
  rw [step_cons hc hi, hd]

/-- Settles O41: after the check of the configuration there is nothing to take. -/
theorem nothingButAnEventChangesTheState : Obligations.NothingButAnEventChangesTheState := by
  intro s hc hi
  simp [step, nextEvent, hc, hi]

/-- A slot-0 tick of a nonempty buffer whose character the decoder cannot see stops as the read does. -/
theorem step_unreadable {s : State} {rest : List EventWord} (hc : s.cfg.ok = true)
    (hi : s.input = evTick :: rest) (hslot : s.slot = 0) (hne : s.rd ≠ s.wr)
    (hnone : (view s).oldest = none) : step s = stop { s with input := rest } .unreadableText := by
  have hempty : textEmpty s = false := beq_eq_false_iff_ne.mpr hne
  have hdecode : decode (view s) evTick = .error .unreadableText := by
    rw [decode_evTick]
    simp [onTick, hslot, hempty, View.codec, hnone]
  rw [step_cons hc hi, hdecode]

/-- Settles O42: in both cases the decoder sees no character, and the cursor tells the faults apart. -/
theorem tickOnUnreadableTextFaults : Obligations.TickOnUnreadableTextFaults := by
  intro s rest hc hi hslot hne
  have hnone (hout : ¬(s.rd < s.cfg.C1 ∧ ∃ b, s.tbuf.read s.rd = some b)) : (view s).oldest = none := by
    refine Option.eq_none_iff_forall_ne_some.mpr fun b hb => hout ?_
    obtain ⟨hrd, hread⟩ := view_oldest.mp hb
    exact ⟨hrd, b, hread⟩
  refine ⟨fun hrd => ?_, fun hrd hread => ?_⟩
  · rw [step_unreadable hc hi hslot hne (hnone fun h => absurd h.1 (Nat.not_lt.mpr hrd))]
    simp [stop, hrd]
  · rw [step_unreadable hc hi hslot hne (hnone fun ⟨_, b, hb⟩ => nomatch hread.symm.trans hb)]
    simp [stop, Nat.not_le.mpr hrd]

/-- Settles O54: a BYTE word is never refused, and the operation it names answers under the invariants
(R87). -/
theorem byteEventsAlwaysComplete : Obligations.ByteEventsAlwaysComplete := by
  intro s b rest hinv hi
  obtain ⟨t, heffect⟩ := (hinv.withInput rest).byte_effect b
  exact ⟨t, step_of_effect hinv.config hi (decode_evByte _ _) heffect, heffect.input⟩

/-- The refusals of R82 are not the decoder's answer for an unreadable character. -/
theorem decodeWord_ne_unreadableText (n : Nat) (ev : EventWord) :
    decodeWord n ev ≠ .error .unreadableText := by
  unfold decodeWord
  split_ifs <;> simp

/-- Under the invariants the decoder's only answers beside an operation are the refusals of R82. -/
theorem BlockInv.decode_readable {s : State} (h : BlockInv s) (ev : EventWord) :
    decode (view s) ev ≠ .error .unreadableText := by
  unfold decode
  cases hword : decodeWord (view s).cfg.C2 ev with
  | error r =>
    intro heq
    exact decodeWord_ne_unreadableText _ _ (hword.trans (congrArg _ (Except.error.inj heq)))
  | ok e =>
    cases e with
    | byte b => simp [select]
    | tick =>
      obtain ⟨i, t, hi, -⟩ := h.tick_effect
      rw [decode_evTick] at hi
      simp [select, hi]
    | ack => simp [select]
    | read k => simp [select]

/-- A HOST_READ that faults is of an unwritten cell inside the Command Buffer (R115). -/
theorem hostRead_fault {s : State} {k : Byte} {f : Fault} (h : exec (.hostRead k) s = .fault f) :
    f = .readUnwritten ∧ k.toNat < s.cfg.C2 ∧ s.cbuf.read k.toNat = none := by
  obtain ⟨hout, hunwritten, hwritten⟩ := hostReadFollowsItsThreeCases s k
  by_cases hk : k.toNat < s.cfg.C2
  · cases hread : s.cbuf.read k.toNat with
    | none => exact ⟨(Host.Outcome.fault.inj ((hunwritten hk hread).symm.trans h)).symm, hk, rfl⟩
    | some b =>
      obtain ⟨t, ht, -⟩ := hwritten b hk hread
      exact nomatch ht.symm.trans h
  · exact nomatch (hout (Nat.le_of_not_lt hk)).symm.trans h

/-- Settles O55: under the invariants a BYTE, a TICK and a HOST_ACK answer a next state and the decoder
stops only with refusals, which leaves HOST_READ. -/
theorem onlyUnwrittenReadsFault : Obligations.OnlyUnwrittenReadsFault := by
  intro s f hinv h
  cases hi : s.input with
  | nil =>
    rw [nothingButAnEventChangesTheState s hinv.config hi] at h
    cases h
  | cons ev rest =>
    cases hd : decode (view s) ev with
    | error r =>
      rw [step_cons hinv.config hi, hd] at h
      cases r with
      | unreadableText => exact absurd hd (hinv.decode_readable ev)
      | _ => cases h
    | ok i =>
      obtain ⟨b, rfl, -⟩ | ⟨rfl, -⟩ | ⟨rfl, rfl⟩ | ⟨k, rfl, -, rfl⟩ := decode_ok hd
      · obtain ⟨t, ht, -⟩ := byteEventsAlwaysComplete s b rest hinv hi
        exact nomatch ht.symm.trans h
      · obtain ⟨t, ht, -⟩ := tickEventsAlwaysComplete s rest hinv hi
        exact nomatch ht.symm.trans h
      · exact nomatch (step_of_effect hinv.config hi hd .ack).symm.trans h
      · rw [stepRunsTheDecodedOperation s _ rest _ hinv.config hi hd] at h
        obtain ⟨rfl, hk, hread⟩ := hostRead_fault h
        exact ⟨rfl, k, rest, rfl, hk, hread⟩

end Sys2Proof.Machine

end

section

namespace Sys2Proof.Machine

/-! Frames on the line (R109, R111, R112): what seven ticks show. -/

/-- Settles O48: LONG once and STD six times, whatever the code (R111). -/
theorem everyFrameLastsSevenAndAHalfBits : Obligations.EveryFrameLastsSevenAndAHalfBits := by
  intro c code
  cases code <;> simp [frameTrace, twiceDuration, Config.twiceInterval, List.replicate] <;> omega

/-- What the start slot of a frame shows (R112). -/
def startTrace : Option Code → List Obs
  | none => [.line .mark .long]
  | some _ => [.line .space .long]

/-- What the six slots after the start slot show (R112). -/
def tailTrace : Option Code → List Obs
  | none => List.replicate 6 (.line .mark .std)
  | some c => [.line (bitLevel c 0) .std, .line (bitLevel c 1) .std, .line (bitLevel c 2) .std,
      .line (bitLevel c 3) .std, .line (bitLevel c 4) .std, .line .mark .std]

theorem frameTrace_eq (code : Option Code) : frameTrace code = startTrace code ++ tailTrace code := by
  cases code <;> rfl

/-- A frame that has started, seen after its stop slot. -/
def frameEnd (u : State) : State :=
  { u with line := .mark, pending := .noData, slot := 0, period := .std,
           trace := u.trace ++ tailTrace (pendingCode u.pending) }

/-- Five data slots and the stop slot end the frame: with a code each data slot shows its bit, and
without one the line stays at MARK. -/
theorem stopSlot_dataSlots {u : State} {l rest : List EventWord} (hslot : u.slot = 1)
    (hline : u.pending = .noData → u.line = .mark) :
    stopSlot { dataSlot^[5] { u with input := l } with input := rest } =
      frameEnd { u with input := rest } := by
  obtain ⟨⟨shift, mode, rd, wr, coff, ready, pending, slot, line, period, tbuf, cbuf⟩,
    cfg, input, trace⟩ := u
  obtain rfl : slot = 1 := hslot
  cases pending with
  | noData =>
    obtain rfl : line = .mark := hline rfl
    simp [stopSlot, dataSlot, frameEnd, emitLine, emit, slotLevel, pendingCode, tailTrace]
  | data c => simp [stopSlot, dataSlot, frameEnd, emitLine, emit, slotLevel, pendingCode, tailTrace]
  | shift c => simp [stopSlot, dataSlot, frameEnd, emitLine, emit, slotLevel, pendingCode, tailTrace]

theorem step_tickBit {s : State} {rest : List EventWord} (hc : s.cfg.ok = true)
    (hi : s.input = evTick :: rest) (hfirst : 1 ≤ s.slot.val) (hlast : s.slot.val ≤ 5) :
    step s = .next (dataSlot { s with input := rest }) :=
  step_of_effect hc hi (decode_encode_of_condition (i := .tickBit) rfl
    (condition_tickBit.mpr ⟨hfirst, hlast⟩)) (.bit hfirst hlast)

theorem step_tickStop {s : State} {rest : List EventWord} (hc : s.cfg.ok = true)
    (hi : s.input = evTick :: rest) (hslot : s.slot = 6) :
    step s = .next (stopSlot { s with input := rest }) :=
  step_of_effect hc hi (decode_encode_of_condition (i := .tickStop) rfl (condition_tickStop.mpr hslot))
    (.stop hslot)

theorem evTicks_append_succ (n : Nat) (rest : List EventWord) :
    evTicks (n + 1) ++ rest = evTicks n ++ evTick :: rest := by
  rw [evTicks, List.replicate_succ', List.append_assoc]
  rfl

/-- Ticks at data slots, one after the other. -/
theorem run_dataSlots (n : Nat) {s : State} {rest : List EventWord} (hc : s.cfg.ok = true)
    (hi : s.input = evTicks n ++ rest) (hfirst : 1 ≤ s.slot.val) (hlast : s.slot.val + n ≤ 6) :
    Host.Core.run Sys2Proof.core n s = .next (dataSlot^[n] { s with input := rest }) := by
  induction n generalizing s with
  | zero =>
    obtain rfl : s.input = rest := hi
    rfl
  | succ n ih =>
    have hslot := slot_succ_val (k := s.slot) (by omega)
    rw [run_succ n (step_tickBit hc hi hfirst (by omega))]
    exact ih (s := dataSlot _) hc rfl (by simp [hslot]) (by simp [hslot]; omega)

/-- The six ticks after the start slot complete and end the frame (R109). -/
theorem run_frame_tail {u : State} {rest : List EventWord} (hc : u.cfg.ok = true)
    (hi : u.input = evTicks 6 ++ rest) (hslot : u.slot = 1)
    (hline : u.pending = .noData → u.line = .mark) :
    Host.Core.run Sys2Proof.core 6 u = .next (frameEnd { u with input := rest }) := by
  have hbits := run_dataSlots 5 hc (hi.trans (evTicks_append_succ 5 rest)) (by simp [hslot])
    (by simp [hslot])
  have hstop := step_tickStop (s := dataSlot^[5] { u with input := evTick :: rest }) (rest := rest)
    (by simpa using hc) (by simp) (by simp [hslot])
  rw [run_add 1 hbits, run_succ 0 hstop, run_zero, stopSlot_dataSlots hslot hline]

/-- A frame begun over an idle line shows its start slot and then its tail (R112). -/
theorem startFrame_trace_of_idle {s w : State} {p : Pending} (hline : s.line = .mark)
    (hadopts : Adopts s p w) : (startFrame p w).trace = s.trace ++ startTrace (pendingCode p) := by
  have hw : w.line = .mark := (congrArg (·.line) hadopts.frame).trans hline
  rw [startFrame_trace, hadopts.trace_eq]
  cases p with
  | noData => rw [startLevel, hw]; rfl
  | data c => rfl
  | shift c => rfl

/-- The rest of a frame, from the state its start slot leaves: the stop slot is reached, and the whole
trace is the frame of the code that was adopted (R109, R112). -/
theorem run_started_frame {s w : State} {p : Pending} {rest : List EventWord} (hinv : BlockInv s)
    (hslot : s.slot = 0) (hadopts : Adopts s p w) (hi : s.input = evTicks 6 ++ rest) :
    ∃ v, Host.Core.run Sys2Proof.core 6 (startFrame p w) = .next v ∧
      v = { w with line := .mark, pending := .noData, slot := 0, period := .std, input := rest,
                   trace := s.trace ++ frameTrace (pendingCode p) } := by
  have hw := hadopts.frame
  have hmark := (hinv.idle_at_slot_zero hslot).2
  have hidle : p = .noData → (startFrame p w).line = .mark := by
    rintro rfl
    exact (congrArg (·.line) hw).trans hmark
  have hcfg : (startFrame p w).cfg.ok = true := by
    rw [startFrame_cfg, hw]
    exact hinv.config
  have hinput : (startFrame p w).input = evTicks 6 ++ rest := (congrArg (·.input) hw).trans hi
  refine ⟨_, run_frame_tail hcfg hinput rfl hidle, ?_⟩
  rw [frameTrace_eq, ← List.append_assoc, ← startFrame_trace_of_idle hmark hadopts]
  rfl

theorem agentOf_of_decode_evTick {v : View} {i : Instr} (h : decode v evTick = .ok i) :
    agentOf i = .tickTimer := by
  obtain ⟨hencode, -, -⟩ := encodeOfDecode v evTick i h
  rw [← senderOf_encode, hencode]
  decide

/-- A tick at slot 0 starts a frame (R108, R110). -/
theorem BlockInv.step_start {s : State} {rest : List EventWord} (h : BlockInv s) (hslot : s.slot = 0)
    (hi : s.input = evTick :: rest) :
    ∃ p w, Adopts { s with input := rest } p w ∧ step s = .next (Machine.startFrame p w) := by
  obtain ⟨i, t, hdecode, heffect⟩ := (h.withInput rest).tick_effect
  have hstep := step_of_effect h.config hi hdecode heffect
  obtain ⟨-, p, w, hadopts, rfl⟩ | ⟨⟨hfirst, -⟩, -⟩ | ⟨hstop, -⟩ :=
    heffect.tick_cases (agentOf_of_decode_evTick hdecode)
  · exact ⟨p, w, hadopts, hstep⟩
  · simp [hslot] at hfirst
  · simp [hslot] at hstop

/-- Settles O47: the first tick starts a frame and the other six end it. -/
theorem sevenTicksShowOneFrame : Obligations.SevenTicksShowOneFrame := by
  intro s rest hinv hslot hi
  obtain ⟨p, w, hadopts, hstep⟩ := hinv.step_start (rest := evTicks 6 ++ rest) hslot hi
  obtain ⟨v, hrun, rfl⟩ := run_started_frame (hinv.withInput (evTicks 6 ++ rest)) hslot hadopts rfl
  refine ⟨_, _, hstep, (run_succ 6 hstep).trans hrun, rfl, rfl, rfl, rfl, rfl, fun hcursors => ?_⟩
  cases hadopts with
  | empty => exact ⟨rfl, rfl⟩
  | oldest hne => exact absurd hcursors hne

/-- Settles O49: the first tick starts the frame of the shift-switch code and moves the Shift State
alone; six ticks end that frame; the next tick finds the same oldest character, now in its shift. -/
theorem oneShiftFrameThenTheData : Obligations.OneShiftFrameThenTheData := by
  intro s rest b c q hinv hslot hne hread hlookup hq hi
  have hempty : (view s).empty = false := view_nonempty_iff.mpr hne
  have holdest : (view s).oldest = some b := view_oldest.mpr ⟨hinv.rd_lt, hread⟩
  obtain ⟨-, -, hnamesShift, -, -, -⟩ := tickWordNamesItsOperation (view s)
  have hshift : Adopts { s with input := evTicks 6 ++ evTick :: rest } (.shift (shiftCode s.cfg q))
      { s with shift := q, input := evTicks 6 ++ evTick :: rest } :=
    .oldest hne hinv.rd_lt hread (.shift hlookup hq)
  have hstep : step s = .next (startFrame (.shift (shiftCode s.cfg q))
      { s with shift := q, input := evTicks 6 ++ evTick :: rest }) :=
    step_of_effect hinv.config (hi.trans (congrArg (evTick :: ·) (evTicks_append_succ 6 rest)))
      (hnamesShift b c q hslot hempty holdest hlookup hq)
      (.startShift hslot hne hinv.rd_lt hread hlookup hq)
  obtain ⟨v, hrun, hv⟩ :=
    run_started_frame (hinv.withInput (evTicks 6 ++ evTick :: rest)) hslot hshift rfl
  have hstart : step v = .next (startFrame (.data c) (textAdvance { v with input := rest })) := by
    subst hv
    obtain ⟨-, hnamesData, -, -, -, -⟩ :=
      tickWordNamesItsOperation (view { s with shift := q, slot := 0 })
    exact step_of_effect hinv.config rfl (hnamesData b c q rfl hempty holdest hlookup rfl)
      (.startData rfl hne hinv.rd_lt hread hlookup)
  refine ⟨_, ((run_succ 7 hstep).trans (run_add 1 hrun)).trans (run_succ 0 hstart), ?_⟩
  subst hv
  exact ⟨rfl, rfl, rfl, rfl, rfl, rfl⟩

/-! ## The Pending Code's encoding -/

/-- The kind and the code of a seven-bit Pending Code (R28). -/
theorem pendingBits_fields (k : BitVec 2) (c : Code) :
    (k ++ c).extractLsb' 5 2 = k ∧ (k ++ c).extractLsb' 0 5 = c := by
  revert k c
  decide

/-- The kind of a Pending Code: 00 for NoData, 01 for a data code, 10 for a shift-switch code (R28). -/
def pendingKind : Pending → BitVec 2
  | .noData => 0b00#2
  | .data _ => 0b01#2
  | .shift _ => 0b10#2

theorem pendingBits_kind (p : Pending) : (pendingBits p).extractLsb' 5 2 = pendingKind p := by
  cases p <;> exact (pendingBits_fields _ _).1

theorem pendingBits_code {p : Pending} {c : Code} (h : pendingCode p = some c) :
    (pendingBits p).extractLsb' 0 5 = c := by
  cases p with
  | noData => cases h
  | data c => exact Option.some.inj h ▸ (pendingBits_fields _ _).2
  | shift c => exact Option.some.inj h ▸ (pendingBits_fields _ _).2

/-- The Pending Code that seven bits encode. -/
def pendingOfBits (x : BitVec 7) : Pending :=
  if x.extractLsb' 5 2 = 0b01#2 then .data (x.extractLsb' 0 5)
  else if x.extractLsb' 5 2 = 0b10#2 then .shift (x.extractLsb' 0 5)
  else .noData

theorem pendingOfBits_pendingBits (p : Pending) : pendingOfBits (pendingBits p) = p := by
  rw [pendingOfBits, pendingBits_kind]
  cases p with
  | noData => rfl
  | data c => exact congrArg Pending.data (pendingBits_code rfl)
  | shift c => exact congrArg Pending.shift (pendingBits_code rfl)

/-- Settles O59: the bits hold the kind and, where there is one, the code, from which the value is read
back (R28). -/
theorem pendingEncodingIsFaithful : Obligations.PendingEncodingIsFaithful := by
  have hinjective := Function.LeftInverse.injective pendingOfBits_pendingBits
  refine ⟨fun p q h => hinjective h, fun p => ?_, fun p => ?_, fun p c => pendingBits_code, rfl⟩
  · rw [pendingBits_kind]
    cases p <;> simp [pendingKind]
  · rw [pendingBits_kind]
    cases p <;> simp [pendingKind]

/-! ## Isolation -/

/-- A tick operation does the same with any other demultiplexer's and host's state (R23, R148). -/
theorem Effect.withCommandSide {s t : State} {i : Instr} (h : Effect s i t) (ha : agentOf i = .tickTimer)
    (m : Mode) (k : Nat) (r : Bool) (cb : Memory) :
    Effect { s with mode := m, coff := k, ready := r, cbuf := cb } i
      { t with mode := m, coff := k, ready := r, cbuf := cb } := by
  cases h with
  | startEmpty hslot hcursors => exact .startEmpty hslot hcursors
  | startData hslot hne hrd hread hlookup => exact .startData hslot hne hrd hread hlookup
  | startShift hslot hne hrd hread hlookup hq => exact .startShift hslot hne hrd hread hlookup hq
  | startNoCode hslot hne hrd hread hlookup => exact .startNoCode hslot hne hrd hread hlookup
  | bit hfirst hlast => exact .bit hfirst hlast
  | stop hslot => exact .stop hslot
  | _ => cases ha

/-- A byte operation does the same with any other transmitter's state (R54, R131). -/
theorem Effect.withTransmitter {s t : State} {i : Instr} (h : Effect s i t)
    (ha : agentOf i = .byteSource) (q : Shift) (r : Nat) (p : Pending) (k : Slot) (l : Level)
    (w : Period) :
    Effect { s with shift := q, rd := r, pending := p, slot := k, line := l, period := w } i
      { t with shift := q, rd := r, pending := p, slot := k, line := l, period := w } := by
  cases h with
  | enterCmd hmode => exact .enterCmd hmode
  | textPut hmode hesc hwr => exact .textPut hmode hesc hwr
  | cmdEnd hmode hcoff => exact .cmdEnd hmode hcoff
  | cmdPut hmode hterm hcoff => exact .cmdPut hmode hterm hcoff
  | cmdDrop hmode hterm hcoff => exact .cmdDrop hmode hterm hcoff
  | _ => cases ha

/-- A step that takes its word and answers runs the operation the word decodes to. -/
theorem step_taken {s t : State} {ev : EventWord} {rest : List EventWord} (hi : s.input = ev :: rest)
    (h : step s = .next t) :
    s.cfg.ok = true ∧ ∃ i, decode (view s) ev = .ok i ∧ Effect { s with input := rest } i t := by
  obtain ⟨hc, ⟨hnil, -⟩ | ⟨ev', rest', i, hi', hdecode, heffect⟩⟩ := step_next h
  · exact nomatch hi.symm.trans hnil
  · obtain ⟨rfl, rfl⟩ := List.cons.inj (hi.symm.trans hi')
    exact ⟨hc, i, hdecode, heffect⟩

/-- Settles O50: the TICK word is decoded by the slot, the text buffer and the Shift State, and its
operation reads nothing else either. -/
theorem ticksIgnoreTheCommandSide : Obligations.TicksIgnoreTheCommandSide := by
  intro s t rest m k r cb hi h
  obtain ⟨hc, i, hdecode, heffect⟩ := step_taken hi h
  have hsame : decode (view { s with mode := m, coff := k, ready := r, cbuf := cb }) evTick = .ok i := by
    rw [decode_evTick] at hdecode ⊢
    exact hdecode
  exact step_of_effect hc hi hsame
    (heffect.withCommandSide (agentOf_of_decode_evTick hdecode) m k r cb)

theorem agentOf_onByte (v : View) (b : Byte) : agentOf (onByte v b) = .byteSource := by
  obtain ⟨hencode, -, -⟩ := onByte_fits v b
  rw [← senderOf_encode, hencode]
  simp [senderOf, evByte]

/-- Settles O51: a BYTE word is decoded by the mode and the offset, and its operation reads nothing of
the transmitter's either. -/
theorem bytesIgnoreTheTransmitter : Obligations.BytesIgnoreTheTransmitter := by
  intro s t b rest q r p k l w hi h
  obtain ⟨hc, i, hdecode, heffect⟩ := step_taken hi h
  rw [decode_evByte] at hdecode
  obtain rfl := Except.ok.inj hdecode
  have hsame : decode
      (view { s with shift := q, rd := r, pending := p, slot := k, line := l, period := w }) (evByte b) = .ok (onByte (view s) b) := decode_evByte _ _
  exact step_of_effect hc hi hsame (heffect.withTransmitter (agentOf_onByte _ _) q r p k l w)

end Sys2Proof.Machine

end

section

namespace Sys2Proof.Machine

/-! Runs over many bytes: text pushed into the ring (R56) and a whole command (R116). -/

/-- A BYTE word whose operation fits and answers is one step of the run. -/
theorem step_byte {s t : State} {b : Byte} {i : Instr} {rest : List EventWord} (hc : s.cfg.ok = true)
    (hi : s.input = evByte b :: rest) (hword : encode i = evByte b)
    (he : Effect { s with input := rest } i t) : step s = .next t := by
  have hdecode : decode (view s) (encode i) = .ok i := by
    obtain ⟨hw, hcond⟩ := he.fits
    exact decode_encode_of_condition hw hcond
  exact step_of_effect hc hi (hword ▸ hdecode) he

/-! ## Text -/

/-- A text byte sent to a ring with room: one more unread character, behind those there (R52, R56). -/
theorem step_text {s : State} {b : Byte} {rest : List EventWord} (hinv : BlockInv s)
    (hmode : s.mode = .data) (hb : b ≠ s.cfg.escByte) (hi : s.input = evByte b :: rest)
    (hroom : unread s < s.cfg.C1 - 1) :
    ∃ u, step s = .next u ∧ BlockInv u ∧ u.mode = .data ∧ u.cfg = s.cfg ∧ u.input = rest ∧
      unread u = unread s + 1 ∧ unreadText u = unreadText s ++ [some b] :=
  ⟨pushText b { s with input := rest },
    step_byte hinv.config hi rfl (effect_pushText hmode hb hinv.wr_lt), (hinv.withInput rest).pushText b,
    hmode, rfl, rfl, unread_pushText_of_room b hroom,
    unreadText_pushText (s := { s with input := rest }) b hinv.rd_lt hinv.wr_lt hroom⟩

/-- Settles O44, by induction on the bytes: each finds room and stands behind the unread text. -/
theorem pushedTextKeepsItsOrder : Obligations.PushedTextKeepsItsOrder := by
  intro bs
  induction bs with
  | nil =>
    intro s rest _ _ _ _ hi
    exact ⟨s, rfl, hi, (List.append_nil _).symm⟩
  | cons b bs ih =>
    intro s rest hinv hmode hesc hroom hi
    obtain ⟨hb, hbs⟩ := List.forall_mem_cons.mp hesc
    rw [List.length_cons] at hroom
    obtain ⟨u, hstep, hinvu, hmodeu, hcfg, hinput, hcount, htext⟩ :=
      step_text (rest := evBytes bs ++ rest) hinv hmode hb hi (by omega)
    obtain ⟨t, hrun, hrest, hunread⟩ :=
      ih u rest hinvu hmodeu (hcfg ▸ hbs) (by rw [hcount, hcfg]; omega) hinput
    refine ⟨t, (run_succ bs.length hstep).trans hrun, hrest, ?_⟩
    rw [hunread, htext, List.append_assoc]
    rfl

/-! ## Commands -/

/-- The bytes stand in the cells from an index on. -/
def holdsAt (m : Memory) : Nat → List Byte → Prop
  | _, [] => True
  | i, b :: l => m.read i = some b ∧ holdsAt m (i + 1) l

/-- A byte written just behind the bytes stands there with them. -/
theorem holdsAt_write_append {m : Memory} (v : Byte) {i : Nat} {l : List Byte} (h : holdsAt m i l) :
    holdsAt (m.write (i + l.length) v) i (l ++ [v]) := by
  induction l generalizing i with
  | nil => exact ⟨Memory.read_write_same m i v, trivial⟩
  | cons b l ih =>
    obtain ⟨hread, hrest⟩ := h
    have hk : i + (b :: l).length = i + 1 + l.length := by rw [List.length_cons]; omega
    rw [hk]
    exact ⟨(Memory.read_write_other m v (by omega)).trans hread, ih hrest⟩

/-- The string read from NUL-terminated cells ends at their first NUL (R116). -/
theorem stringFrom_of_holdsAt {m : Memory} {n i : Nat} {l : List Byte} (h : holdsAt m i (l ++ [0x00#8]))
    (hn : l.length < n) : stringFrom m n i = some (l.takeWhile (· ≠ 0x00#8)) := by
  induction l generalizing n i with
  | nil =>
    obtain ⟨n, rfl⟩ := Nat.exists_eq_succ_of_ne_zero (Nat.ne_of_gt hn)
    simp [stringFrom, h.1]
  | cons b l ih =>
    obtain ⟨n, rfl⟩ := Nat.exists_eq_succ_of_ne_zero (Nat.ne_of_gt (Nat.zero_lt_of_lt hn))
    obtain ⟨hread, hrest⟩ := h
    have hstring := ih hrest (Nat.lt_of_succ_lt_succ hn)
    by_cases hb : b = 0x00#8
    · simp [stringFrom, hread, hb]
    · simp [stringFrom, hread, hb, hstring]

/-- A run over bytes of a command stores them behind those already stored, up to `C2 - 1` in all; the
rest are dropped (R91, R92). -/
theorem run_command_bytes (bs : List Byte) {s : State} {l : List Byte} {rest : List EventWord}
    (hinv : BlockInv s) (hmode : s.mode = .command) (hterm : ∀ b ∈ bs, b ≠ s.cfg.termByte)
    (hcoff : s.coff = l.length) (hcells : holdsAt s.cbuf 0 l) (hi : s.input = evBytes bs ++ rest) :
    ∃ t, Host.Core.run Sys2Proof.core bs.length s = .next t ∧ BlockInv t ∧ t.mode = .command ∧
      t.cfg = s.cfg ∧ t.input = rest ∧ t.coff = ((l ++ bs).take (s.cfg.C2 - 1)).length ∧
      holdsAt t.cbuf 0 ((l ++ bs).take (s.cfg.C2 - 1)) := by
  have hle : l.length ≤ s.cfg.C2 - 1 := hcoff ▸ hinv.coff_le
  induction bs generalizing s l with
  | nil =>
    rw [List.append_nil, List.take_of_length_le hle]
    exact ⟨s, rfl, hinv, hmode, rfl, hi, hcoff, hcells⟩
  | cons b bs ih =>
    obtain ⟨hb, hbs⟩ := List.forall_mem_cons.mp hterm
    have hwaiting := hinv.withInput (evBytes bs ++ rest)
    by_cases hroom : s.coff < s.cfg.C2 - 1
    · have heffect : Effect { s with input := evBytes bs ++ rest } (.cmdPut b) _ :=
        .cmdPut hmode hb hroom
      have hstep := step_byte hinv.config hi rfl heffect
      have hstored := holdsAt_write_append b hcells
      rw [Nat.zero_add, ← hcoff] at hstored
      obtain ⟨t, hrun, ht⟩ := ih (l := l ++ [b]) (hwaiting.effect heffect) hmode hbs (by simp [hcoff])
        hstored rfl (by simp; omega)
      rw [List.append_assoc] at ht
      exact ⟨t, (run_succ bs.length hstep).trans hrun, ht⟩
    · have heffect : Effect { s with input := evBytes bs ++ rest } (.cmdDrop b) _ :=
        .cmdDrop hmode hb (Nat.le_of_not_lt hroom)
      have hstep := step_byte hinv.config hi rfl heffect
      obtain ⟨t, hrun, ht⟩ := ih hwaiting hmode hbs hcoff hcells rfl hle
      have hfull : l.length = s.cfg.C2 - 1 := by omega
      have hkept (bs' : List Byte) : (l ++ bs').take (s.cfg.C2 - 1) = l := by
        rw [← hfull, List.take_left]
      rw [hkept]
      rw [hkept] at ht
      exact ⟨t, (run_succ bs.length hstep).trans hrun, ht⟩

/-- Settles O52: the escape opens an empty command, its bytes are stored up to `C2 - 1`, and the
terminator puts a NUL behind them, which ends the string the host reads unless an earlier NUL does. -/
theorem commandStringIsTheTruncatedCommand : Obligations.CommandStringIsTheTruncatedCommand := by
  intro bs s rest hinv hmode hterm hi
  have hwaiting := hinv.withInput (evBytes bs ++ evByte s.cfg.termByte :: rest)
  have hopen : Effect { s with input := evBytes bs ++ evByte s.cfg.termByte :: rest }
      (.enterCmd s.cfg.escByte) _ := .enterCmd hmode
  have hfirst := step_byte hinv.config hi rfl hopen
  obtain ⟨t, hrun, hinvt, hmodet, hcfg, hinput, hcoff, hcells⟩ :=
    run_command_bytes bs (l := []) (hwaiting.effect hopen) rfl hterm rfl trivial rfl
  have hclose : Effect { t with input := rest } (.cmdEnd t.cfg.termByte) _ :=
    .cmdEnd hmodet hinvt.coff_lt
  have hlast := step_byte hinvt.config (hcfg ▸ hinput) rfl hclose
  refine ⟨_, ((run_succ (bs.length + 1) hfirst).trans (run_add 1 hrun)).trans (run_succ 0 hlast),
    rfl, rfl, rfl, rfl, ?_⟩
  have hstored := holdsAt_write_append 0x00#8 hcells
  have hlength : ((([] ++ bs).take (s.cfg.C2 - 1)).length) < t.cfg.C2 := by
    have hlt := hinvt.coff_lt
    rwa [hcoff] at hlt
  rw [Nat.zero_add, ← hcoff] at hstored
  exact stringFrom_of_holdsAt hstored hlength

end Sys2Proof.Machine

end

section

namespace Sys2Proof.Machine

/-! What the environment's duties bring in an infinite run (R120, R151, R152): the oldest character is
taken, every byte sent is taken by its operation, and frames keep their time. -/

section events
variable {c : Config} {ev : Nat → EventWord} {run : Nat → State}

theorem IsRun.inv (h : IsRun c ev run) (n : Nat) : BlockInv (run n) :=
  reachableStatesHaveTheInvariants _ (h.reachable n)

/-- The event of a run is a tick exactly where the operation it names is the timer's. -/
theorem decode_evTick_iff {v : View} {w : EventWord} {i : Instr} (h : decode v w = .ok i) :
    w = evTick ↔ agentOf i = .tickTimer := by
  obtain ⟨hencode, -, -⟩ := encodeOfDecode v w i h
  constructor
  · rintro rfl
    exact agentOf_of_decode_evTick h
  · intro ha
    rw [← hencode, encode_of_tickTimer ha]

/-- A tick moves the slot on (R108). -/
theorem IsRun.slot_of_tick (h : IsRun c ev run) {n : Nat} (htick : ev n = evTick) :
    (run (n + 1)).slot.val = if (run n).slot.val = 6 then 0 else (run n).slot.val + 1 := by
  obtain ⟨i, hdecode, heffect⟩ := h.effect n
  exact slotsFollowTheirCycle _ _ i ((decode_evTick_iff hdecode).mp htick) (exec_next.mpr heffect)

/-- No other event moves the slot (R29). -/
theorem IsRun.slot_of_other (h : IsRun c ev run) {n : Nat} (hother : ev n ≠ evTick) :
    (run (n + 1)).slot = (run n).slot := by
  obtain ⟨i, hdecode, heffect⟩ := h.effect n
  obtain ⟨-, hslot, -⟩ := heffect.transmitter_writer.resolve_right
    fun ha => hother ((decode_evTick_iff hdecode).mpr ha)
  exact hslot

end events

/-! ## The oldest character is taken -/

/-- A bound on the ticks until the oldest character is taken: those to the next slot 0, then one, or
eight where a shift frame comes first (R99). -/
def ticksLeft (s : State) : Nat :=
  (7 - s.slot.val) % 7 + if (view s).codec = some .shift then 8 else 1

theorem ticksLeft_le (s : State) : ticksLeft s ≤ 14 := by
  have hslot := s.slot.isLt
  unfold ticksLeft
  split_ifs <;> omega

theorem ticksLeft_pos (s : State) : 0 < ticksLeft s := by
  unfold ticksLeft
  split_ifs <;> omega

/-- The codec sees the same oldest character in the same Shift State. -/
theorem view_codec_congr {s t : State} (hcfg : t.cfg = s.cfg) (hshift : t.shift = s.shift)
    (hrd : t.rd = s.rd) (hread : t.tbuf.read t.rd = s.tbuf.read s.rd) :
    (view t).codec = (view s).codec := by
  have holdest : (view t).oldest = (view s).oldest := by
    refine Option.ext fun b => ?_
    rw [view_oldest, view_oldest, hread, hrd, hcfg]
  rw [View.codec, View.codec, holdest, view_cfg, view_cfg, view_shift, view_shift, hcfg, hshift]

/-- An event of the byte source or the host leaves the oldest character and the bound alone: a push
stores at the write cursor, which stands elsewhere in a nonempty buffer. -/
theorem Effect.ticksLeft_other {s t : State} {i : Instr} (h : Effect s i t)
    (ha : agentOf i ≠ .tickTimer) (hne : s.rd ≠ s.wr) : t.rd = s.rd ∧ ticksLeft t = ticksLeft s := by
  have hrd : t.rd = s.rd := h.rd_writer.resolve_right fun hi => ha (by rcases hi with rfl | rfl <;> rfl)
  have hshift : t.shift = s.shift := h.shift_writer.resolve_right fun hi => ha (by rw [hi]; rfl)
  obtain ⟨-, hslot, -⟩ := h.transmitter_writer.resolve_right ha
  have hread : t.tbuf.read t.rd = s.tbuf.read s.rd := by
    rw [hrd]
    exact h.tbuf_read fun hwr => hne hwr.2
  refine ⟨hrd, ?_⟩
  rw [ticksLeft, ticksLeft, hslot, view_codec_congr h.cfg hshift hrd hread]

/-- A tick of a nonempty buffer takes the oldest character, or leaves it there with fewer ticks to go:
at slot 0 the shift frame it starts leaves a character of the current shift. -/
theorem Effect.ticksLeft_tick {s t : State} {i : Instr} (h : Effect s i t)
    (ha : agentOf i = .tickTimer) (hne : s.rd ≠ s.wr) :
    t.rd = (s.rd + 1) % s.cfg.C1 ∨ (t.rd = s.rd ∧ ticksLeft t + 1 ≤ ticksLeft s) := by
  obtain ⟨hslot, p, u, hadopts, rfl⟩ | ⟨⟨hfirst, hlast⟩, rfl⟩ | ⟨hslot, rfl⟩ := h.tick_cases ha
  · cases hadopts with
    | empty hcursors => exact absurd hcursors hne
    | oldest _ hrd hread hcodec =>
      cases hcodec with
      | noCode => exact .inl rfl
      | data => exact .inl rfl
      | @shift k q hlookup hq =>
        refine .inr ⟨rfl, ?_⟩
        have hnow : (view s).codec = some .shift := by
          rw [view_codec hrd hread, codecCase_of_lookup hlookup, if_neg hq]
        have hnext : (view (startFrame (.shift (shiftCode s.cfg q)) { s with shift := q })).codec =
            some .data :=
          (view_codec (s := startFrame _ { s with shift := q }) hrd hread).trans
            (congrArg some ((codecCase_of_lookup hlookup).trans (if_pos rfl)))
        rw [ticksLeft, ticksLeft, hnow, hnext, startFrame_slot, hslot]
        decide
  · have hcodec : (view (dataSlot s)).codec = (view s).codec := view_codec_congr rfl rfl rfl rfl
    refine .inr ⟨rfl, ?_⟩
    rw [ticksLeft, ticksLeft, hcodec, dataSlot_slot, slot_succ_val hlast]
    omega
  · have hcodec : (view (stopSlot s)).codec = (view s).codec := view_codec_congr rfl rfl rfl rfl
    refine .inr ⟨rfl, ?_⟩
    rw [ticksLeft, ticksLeft, hcodec, stopSlot_slot, hslot]
    simp only [show ((0 : Slot).val) = 0 from rfl, show ((6 : Slot).val) = 6 from rfl]
    omega

section events
variable {c : Config} {ev : Nat → EventWord} {run : Nat → State}

theorem tickCount_succ_of_tick {n : Nat} (h : ev n = evTick) :
    tickCount ev (n + 1) = tickCount ev n + 1 := by
  rw [tickCount, if_pos h]

theorem tickCount_succ_of_other {n : Nat} (h : ev n ≠ evTick) :
    tickCount ev (n + 1) = tickCount ev n := by
  rw [tickCount, if_neg h, Nat.add_zero]

/-- The oldest character of state `n` is taken, or the buffer reads as empty, within `k` ticks. -/
def TakenWithin (c : Config) (ev : Nat → EventWord) (run : Nat → State) (n k : Nat) : Prop :=
  ∃ m, n < m ∧ tickCount ev m ≤ tickCount ev n + k ∧
    ((run m).rd = ((run n).rd + 1) % c.C1 ∨ (run m).rd = (run m).wr)

theorem TakenWithin.now {n k : Nat}
    (h : (run (n + 1)).rd = ((run n).rd + 1) % c.C1 ∨ (run (n + 1)).rd = (run (n + 1)).wr) :
    TakenWithin c ev run n (k + 1) := by
  refine ⟨n + 1, Nat.lt_succ_self n, ?_, h⟩
  rw [tickCount]
  split_ifs <;> omega

/-- Where the next state has the same oldest character, it is enough to wait from there. -/
theorem TakenWithin.of_succ {n k l : Nat} (h : TakenWithin c ev run (n + 1) k)
    (hrd : (run (n + 1)).rd = (run n).rd) (hcount : tickCount ev (n + 1) + k ≤ tickCount ev n + l) :
    TakenWithin c ev run n l := by
  obtain ⟨m, hm, hticks, htaken⟩ := h
  exact ⟨m, by omega, by omega, hrd ▸ htaken⟩

/-- A tick at hand takes the oldest character, or leaves a lower bound. -/
theorem IsRun.takenWithin_tick (h : IsRun c ev run) {n k : Nat} (htick : ev n = evTick)
    (hne : (run n).rd ≠ (run n).wr) (hbound : ticksLeft (run n) ≤ k + 1)
    (hlater : ∀ m, (run m).rd ≠ (run m).wr → ticksLeft (run m) ≤ k → TakenWithin c ev run m k) :
    TakenWithin c ev run n (k + 1) := by
  obtain ⟨i, hdecode, heffect⟩ := h.effect n
  rcases heffect.ticksLeft_tick ((decode_evTick_iff hdecode).mp htick) hne with htaken | ⟨hrd, hleft⟩
  · exact .now (.inl (h.cfg n ▸ htaken))
  · by_cases hempty : (run (n + 1)).rd = (run (n + 1)).wr
    · exact .now (.inr hempty)
    · refine (hlater (n + 1) hempty (by omega)).of_succ hrd ?_
      rw [tickCount_succ_of_tick htick]
      omega

/-- With ticks to come the oldest character is taken within the bound: by induction on the bound, and
for each bound on how far off the next tick is. -/
theorem IsRun.takenWithin (h : IsRun c ev run) (hticks : TicksKeepComing ev) (k : Nat) :
    ∀ n, (run n).rd ≠ (run n).wr → ticksLeft (run n) ≤ k → TakenWithin c ev run n k := by
  induction k with
  | zero =>
    intro n _ hbound
    exact absurd (ticksLeft_pos (run n)) (by omega)
  | succ k ihk =>
    intro n hne hbound
    obtain ⟨m, hnm, hm⟩ := hticks n
    obtain ⟨d, rfl⟩ := Nat.exists_eq_add_of_le hnm
    induction d generalizing n with
    | zero => exact h.takenWithin_tick hm hne hbound ihk
    | succ d ihd =>
      by_cases htick : ev n = evTick
      · exact h.takenWithin_tick htick hne hbound ihk
      · obtain ⟨i, hdecode, heffect⟩ := h.effect n
        obtain ⟨hrd, hleft⟩ := heffect.ticksLeft_other
          (fun ha => htick ((decode_evTick_iff hdecode).mpr ha)) hne
        by_cases hempty : (run (n + 1)).rd = (run (n + 1)).wr
        · exact .now (.inr hempty)
        · have hlater := ihd (n + 1) hempty (hleft ▸ hbound) (by omega) (by rwa [Nat.succ_add])
          exact hlater.of_succ hrd (by rw [tickCount_succ_of_other htick])

/-! ## Every byte sent is taken by its operation -/

/-- The place of a delivered byte is the number of bytes delivered before it. -/
theorem exists_delivery {n k : Nat} {b : Byte} (h : (deliveredBytes ev n)[k]? = some b) :
    ∃ m, (deliveredBytes ev m).length = k ∧ ev m = evByte b := by
  induction n with
  | zero => cases h
  | succ n ih =>
    rw [deliveredBytes] at h
    by_cases hbefore : k < (deliveredBytes ev n).length
    · exact ih (by rwa [List.getElem?_append_left hbefore] at h)
    · rw [List.getElem?_append_right (Nat.le_of_not_lt hbefore)] at h
      split at h
      · rename_i hkind
        obtain ⟨hplace, hbyte⟩ := List.getElem?_eq_some_iff.mp h
        have hlength : k - (deliveredBytes ev n).length = 0 := by simpa using hplace
        refine ⟨n, by omega, ?_⟩
        rw [List.getElem_singleton] at hbyte
        rw [← evWord_fields (ev n), hkind, hbyte]
        rfl
      · cases h

/-- A byte that comes is taken by the operation R79 names for it in the state it finds. -/
theorem IsRun.exec_byte (h : IsRun c ev run) {n : Nat} {b : Byte} (hbyte : ev n = evByte b) :
    exec (onByte (view (run n)) b) (run n) = .next (run (n + 1)) := by
  obtain ⟨i, hdecode, heffect⟩ := h.effect n
  rw [hbyte, decode_evByte] at hdecode
  exact Except.ok.inj hdecode ▸ exec_next.mpr heffect

/-! ## Frames keep their time -/

/-- Twice the time from a tick at slot `k` to the next tick at slot 0 (R111). -/
def timeLeft (c : Config) (k : Nat) : Nat :=
  if k = 0 then 15 * c.tBit else 2 * (7 - k) * c.tBit

/-- The interval that a tick selects, LONG at slot 0 and STD elsewhere, then the time from the next
slot. -/
theorem timeLeft_succ (c : Config) {k : Nat} (hk : k < 6) :
    timeLeft c k = c.twiceInterval (if k = 0 then .long else .std) + timeLeft c (k + 1) := by
  by_cases hzero : k = 0
  · simp [timeLeft, hzero, Config.twiceInterval]
    omega
  · have hrest : 7 - k = (7 - (k + 1)) + 1 := by omega
    rw [timeLeft, timeLeft, if_neg hzero, if_neg (Nat.succ_ne_zero k), if_neg hzero, hrest]
    simp only [Config.twiceInterval]
    ring

/-- The slot stands still between two ticks (R29). -/
theorem IsRun.slot_between (h : IsRun c ev run) {n m : Nat} (hnm : n ≤ m)
    (hquiet : ∀ k, n ≤ k → k < m → ev k ≠ evTick) : (run m).slot = (run n).slot := by
  induction m, hnm using Nat.le_induction with
  | base => rfl
  | succ m hnm ih =>
    rw [h.slot_of_other (hquiet m hnm (Nat.lt_succ_self m))]
    exact ih fun k hk hkm => hquiet k hk (Nat.lt_succ_of_lt hkm)

/-- The period after a tick is LONG where the tick was at slot 0 (R40). -/
theorem IsRun.period_of_tick (h : IsRun c ev run) {n : Nat} (htick : ev n = evTick) :
    (run (n + 1)).period = if (run n).slot.val = 0 then .long else .std := by
  have hlong := (h.inv (n + 1)).long_iff_slot_one
  have hnext := h.slot_of_tick htick
  have hone : (run (n + 1)).slot = 1 ↔ (run n).slot.val = 0 := by
    rw [Fin.ext_iff, hnext]
    split_ifs <;> simp
    omega
  rw [hone] at hlong
  split
  · exact hlong.mpr ‹_›
  · cases hperiod : (run (n + 1)).period with
    | std => rfl
    | long => exact absurd (hlong.mp hperiod) ‹_›

/-- From a tick to the next tick at slot 0: by induction on the events between them, one interval at a
time. -/
theorem IsRun.time_to_frame_end (h : IsRun c ev run) {time : Nat → Nat}
    (hkeeps : KeepsPeriod c time ev run) {m : Nat} (hm : ev m = evTick) (hend : (run m).slot = 0)
    (n : Nat) (hnm : n < m) (hn : ev n = evTick)
    (hinside : ∀ k, n < k → k < m → ev k = evTick → (run k).slot ≠ 0) :
    time m = time n + timeLeft c (run n).slot.val := by
  have hnext : ∃ p, n < p ∧ ev p = evTick := ⟨m, hnm, hm⟩
  obtain ⟨p, ⟨hnp, hp⟩, hleast⟩ : ∃ p, (n < p ∧ ev p = evTick) ∧ ∀ k < p, ¬(n < k ∧ ev k = evTick) :=
    ⟨Nat.find hnext, Nat.find_spec hnext, fun _ => Nat.find_min hnext⟩
  have hpm : p ≤ m := Nat.le_of_not_lt fun hmp => hleast m hmp ⟨hnm, hm⟩
  have htime := hkeeps.2 n p hnp hn hp fun k hnk hkp hk => hleast k hkp ⟨hnk, hk⟩
  have hslot := (congrArg Fin.val (h.slot_between (Nat.succ_le_of_lt hnp)
    fun k hnk hkp hk => hleast k hkp ⟨hnk, hk⟩)).trans (h.slot_of_tick hn)
  rw [h.period_of_tick hn] at htime
  have hbound := (run n).slot.isLt
  rcases Nat.eq_or_lt_of_le hpm with rfl | hpm
  · have hsix : (run n).slot.val = 6 := by
      rw [hend] at hslot
      split at hslot
      · assumption
      · exact absurd hslot (by simp)
    rw [htime, hsix]
    simp [timeLeft, Config.twiceInterval]
  · have hnot : (run n).slot.val ≠ 6 := fun hsix =>
      hinside p hnp hpm hp (Fin.ext (by rw [hslot, if_pos hsix]; rfl))
    have hrest := h.time_to_frame_end hkeeps hm hend p hpm hp
      fun k hpk hkm => hinside k (hnp.trans hpk) hkm
    rw [hslot, if_neg hnot] at hrest
    rw [hrest, htime, timeLeft_succ c (k := (run n).slot.val) (by omega), Nat.add_assoc]
termination_by m - n

end events

/-- Settles O60: the oldest character's ticks are bounded by 14, a delivered byte's place is the count of
those before it, and from one frame start to the next the intervals add up to 7.5 T_BIT. -/
theorem dutiesKeepTheBlockMoving : Obligations.DutiesKeepTheBlockMoving := by
  intro c ev run h
  refine ⟨fun hticks n hne => ?_, fun sent hsent k b hk => ?_,
    fun time hkeeps n m hnm hn hm hstart hend hinside => ?_⟩
  · exact h.takenWithin hticks 14 n hne (ticksLeft_le _)
  · obtain ⟨-, hall⟩ := hsent
    obtain ⟨n, hn⟩ := hall k b hk
    obtain ⟨m, hplace, hbyte⟩ := exists_delivery hn
    exact ⟨m, hplace, hbyte, h.exec_byte hbyte⟩
  · rw [h.time_to_frame_end hkeeps hm hend n hnm hn hinside, hstart]
    rfl

end Sys2Proof.Machine

end
